-- ==== Sys2Proof/Word.lean ====
section
/-! DEFINITION. The two widths of the machine: the 16-bit word of every cell, register, stack value and operand code
(00_scope.md R5, R8), and the 8-bit byte of the image and the console (R8). -/

namespace Sys2Proof

/-- A word, 16 bits, unsigned (R8). -/
abbrev Word := BitVec 16

/-- A byte, 8 bits, unsigned (R8). -/
abbrev Byte := BitVec 8

end Sys2Proof
end

