-- ==== Sys2Proof/Config.lean ====
section
/-! DEFINITION. The parameters the source fixes (00_scope.md R5), as constants. The four it leaves open (R6: start
address, image, input stream, stack capacity) are arguments of `Sys2Proof.Machine.launch`. The spec leaves no value
undefined, so there is no free value here. -/

namespace Sys2Proof

/-- MEM_CELLS: number of memory cells, addresses 0 to 65535 (R5). -/
abbrev Config.memCells : Nat := 65536

/-- REGBASE: the first register code (R5). -/
abbrev Config.regBase : Nat := 32768

/-- LIT_MAX: the largest Literal code (R5). -/
abbrev Config.litMax : Nat := 32767

/-- REG_LAST: the last register code (R5). -/
abbrev Config.regLast : Nat := 32775

/-- INVALID_MIN: the smallest Invalid code (R5). -/
abbrev Config.invalidMin : Nat := 32776

/-- ARITH_MODULUS: the modulus of ADD and MULT (R5). -/
abbrev Config.arithModulus : Nat := 32768

/-- NOT_MASK: the 15-bit mask of NOT (R5). -/
abbrev Config.notMask : Word := 0x7FFF

/-- MAX_OPERANDS: the most operand words after an opcode word (R5). -/
abbrev Config.maxOperands : Nat := 3

/-- The longest image, in bytes: 65536 words (70_reset_and_hazards.md R137). -/
abbrev Config.maxImageBytes : Nat := 131072

end Sys2Proof
end

