-- ==== Sys2Proof/Syntax.lean ====
section
/-! DEFINITION. The 22 instructions and their operands as syntax: 30_encoding.md R48, R49, R53. -/

namespace Sys2Proof

/-- The three classes of an operand code (R49). -/
inductive OperandClass where
  | literal
  | register
  | invalid
deriving DecidableEq, Repr

/-- An operand word, sorted by its class (R49). An Invalid word is an operand too: what it does is decided when the
instruction runs (40_step_and_resolver.md R64, R68, R69). -/
inductive Operand where
  /-- Codes 0 to 32767: the 15-bit number itself. -/
  | literal (v : BitVec 15)
  /-- Codes 32768 to 32775: register `Ri`. -/
  | register (r : Fin 8)
  /-- Codes 32776 to 65535, a malformed operand; the code is kept. -/
  | invalid (code : Word)
deriving DecidableEq, Repr

/-- The instructions (R53). `a` is a destination, `b` and `c` are sources, `x` is a target or address (00_scope.md
R11). JMP alone takes its operand raw, as a plain word (44_jump.md R87). -/
inductive Instr where
  | halt
  | set (a b : Operand)
  | push (b : Operand)
  | pop (a : Operand)
  | eq (a b c : Operand)
  | gt (a b c : Operand)
  | jmp (x : Word)
  | jt (b x : Operand)
  | jf (b x : Operand)
  | add (a b c : Operand)
  | mult (a b c : Operand)
  | mod (a b c : Operand)
  | and (a b c : Operand)
  | or (a b c : Operand)
  | not (a b : Operand)
  | rmem (a x : Operand)
  | wmem (x b : Operand)
  | call (x : Operand)
  | ret
  | output (b : Operand)
  | input (a : Operand)
  | noop
deriving DecidableEq, Repr

end Sys2Proof
end

