-- ==== Sys2Proof/WellFormed.lean ====
section
/-! DEFINITION. Which terms stand for words of memory. The one check: a code kept as Invalid lies in the Invalid range
(30_encoding.md R49); every other term is some word's reading. -/

namespace Sys2Proof

/-- The code of an `invalid` operand is 32776 or more (R49). -/
def Operand.wellFormed : Operand → Bool
  | .literal _ => true
  | .register _ => true
  | .invalid code => decide (Config.invalidMin ≤ code.toNat)

/-- Every operand of the instruction is well formed; JMP's raw word always is (44_jump.md R87). -/
def Instr.wellFormed : Instr → Bool
  | .halt => true
  | .set a b => a.wellFormed && b.wellFormed
  | .push b => b.wellFormed
  | .pop a => a.wellFormed
  | .eq a b c => a.wellFormed && b.wellFormed && c.wellFormed
  | .gt a b c => a.wellFormed && b.wellFormed && c.wellFormed
  | .jmp _ => true
  | .jt b x => b.wellFormed && x.wellFormed
  | .jf b x => b.wellFormed && x.wellFormed
  | .add a b c => a.wellFormed && b.wellFormed && c.wellFormed
  | .mult a b c => a.wellFormed && b.wellFormed && c.wellFormed
  | .mod a b c => a.wellFormed && b.wellFormed && c.wellFormed
  | .and a b c => a.wellFormed && b.wellFormed && c.wellFormed
  | .or a b c => a.wellFormed && b.wellFormed && c.wellFormed
  | .not a b => a.wellFormed && b.wellFormed
  | .rmem a x => a.wellFormed && x.wellFormed
  | .wmem x b => x.wellFormed && b.wellFormed
  | .call x => x.wellFormed
  | .ret => true
  | .output b => b.wellFormed
  | .input a => a.wellFormed
  | .noop => true

end Sys2Proof
end

