-- ==== Sys2Proof/Decode.lean ====
section
/-! DEFINITION. Reading instructions from words or image bytes, and writing them back: 30_encoding.md R47 to R56, R62;
20_memory.md R32. One decoder serves every source of words: a list of words, a list of bytes, and (in
Machine/Fetch.lean) the machine's own `Fetch()`. -/

namespace Sys2Proof

/-! ### Bytes and words (20_memory.md R32) -/

/-- The low 8 bits of a word, image byte `2i`. -/
def lowByte (w : Word) : Byte := w.setWidth 8

/-- The high 8 bits of a word, image byte `2i+1`. -/
def highByte (w : Word) : Byte := (w >>> 8).setWidth 8

/-- The word of two image bytes, low byte first: `lo + 256 * hi`. -/
def wordOfBytes (lo hi : Byte) : Word := BitVec.ofNat 16 (lo.toNat + 256 * hi.toNat)

/-- The image bytes of a list of words (30_encoding.md R62). -/
def bytesOfWords : List Word → List Byte
  | [] => []
  | w :: ws => lowByte w :: highByte w :: bytesOfWords ws

/-! ### Operand codes -/

/-- `Classify(code)` (40_step_and_resolver.md R67). -/
def classify (code : Word) : OperandClass :=
  if code.toNat ≤ Config.litMax then .literal
  else if code.toNat ≤ Config.regLast then .register
  else .invalid

/-- An operand word sorted by its class, with what each class denotes (R49). -/
def Operand.ofWord (code : Word) : Operand :=
  match classify code with
  | .literal => .literal (code.setWidth 15)
  | .register => .register (Fin.ofNat 8 (code.toNat - Config.regBase))
  | .invalid => .invalid code

/-- The operand word of an operand (R49). -/
def Operand.code : Operand → Word
  | .literal v => v.setWidth 16
  | .register r => BitVec.ofNat 16 (Config.regBase + r.val)
  | .invalid code => code

/-! ### The decoder -/

/-- Why a list of words or bytes is no instruction. -/
inductive DecodeError where
  /-- The opcode word is 22 or more (R55). -/
  | invalidOpcode (op : Word)
  /-- The list ends before the instruction does. -/
  | outOfWords
deriving DecidableEq, Repr

section
variable {σ ε : Type} (next : σ → Except ε (Word × σ))

/-- One operand word, then the instruction it makes. -/
def operands1 (mk : Word → Instr) (s : σ) : Except ε (Instr × σ) :=
  match next s with
  | .error e => .error e
  | .ok (w, s) => .ok (mk w, s)

/-- Two operand words, in memory order (40_step_and_resolver.md R66). -/
def operands2 (mk : Word → Word → Instr) (s : σ) : Except ε (Instr × σ) :=
  match next s with
  | .error e => .error e
  | .ok (w, s) => operands1 next (mk w) s

/-- Three operand words, in memory order (R66). -/
def operands3 (mk : Word → Word → Word → Instr) (s : σ) : Except ε (Instr × σ) :=
  match next s with
  | .error e => .error e
  | .ok (w, s) => operands2 next (mk w) s

/-- The opcode map (R53): the whole opcode word selects the instruction (R54), and with it how many operand words are
taken from the source `next`. A word of 22 or more selects none, and no operand word is taken (R55). -/
def decodeFrom (bad : Word → σ → ε) (s : σ) : Except ε (Instr × σ) :=
  match next s with
  | .error e => .error e
  | .ok (op, s) =>
    match op.toNat with
    | 0 => .ok (.halt, s)
    | 1 => operands2 next (fun a b => .set (.ofWord a) (.ofWord b)) s
    | 2 => operands1 next (fun b => .push (.ofWord b)) s
    | 3 => operands1 next (fun a => .pop (.ofWord a)) s
    | 4 => operands3 next (fun a b c => .eq (.ofWord a) (.ofWord b) (.ofWord c)) s
    | 5 => operands3 next (fun a b c => .gt (.ofWord a) (.ofWord b) (.ofWord c)) s
    | 6 => operands1 next (fun x => .jmp x) s
    | 7 => operands2 next (fun b x => .jt (.ofWord b) (.ofWord x)) s
    | 8 => operands2 next (fun b x => .jf (.ofWord b) (.ofWord x)) s
    | 9 => operands3 next (fun a b c => .add (.ofWord a) (.ofWord b) (.ofWord c)) s
    | 10 => operands3 next (fun a b c => .mult (.ofWord a) (.ofWord b) (.ofWord c)) s
    | 11 => operands3 next (fun a b c => .mod (.ofWord a) (.ofWord b) (.ofWord c)) s
    | 12 => operands3 next (fun a b c => .and (.ofWord a) (.ofWord b) (.ofWord c)) s
    | 13 => operands3 next (fun a b c => .or (.ofWord a) (.ofWord b) (.ofWord c)) s
    | 14 => operands2 next (fun a b => .not (.ofWord a) (.ofWord b)) s
    | 15 => operands2 next (fun a x => .rmem (.ofWord a) (.ofWord x)) s
    | 16 => operands2 next (fun x b => .wmem (.ofWord x) (.ofWord b)) s
    | 17 => operands1 next (fun x => .call (.ofWord x)) s
    | 18 => .ok (.ret, s)
    | 19 => operands1 next (fun b => .output (.ofWord b)) s
    | 20 => operands1 next (fun a => .input (.ofWord a)) s
    | 21 => .ok (.noop, s)
    | _ => .error (bad op s)

end

/-- The next word of a list of words. -/
def takeWord : List Word → Except DecodeError (Word × List Word)
  | [] => .error .outOfWords
  | w :: ws => .ok (w, ws)

/-- The next word of a list of image bytes, little-endian (20_memory.md R32). -/
def takeBytes : List Byte → Except DecodeError (Word × List Byte)
  | lo :: hi :: bs => .ok (wordOfBytes lo hi, bs)
  | _ => .error .outOfWords

/-- The instruction at the front of a list of words, with the words after it. -/
def decode (ws : List Word) : Except DecodeError (Instr × List Word) :=
  decodeFrom takeWord (fun op _ => .invalidOpcode op) ws

/-- The instruction at the front of a list of image bytes, with the bytes after it. -/
def decodeBytes (bs : List Byte) : Except DecodeError (Instr × List Byte) :=
  decodeFrom takeBytes (fun op _ => .invalidOpcode op) bs

/-! ### The encoder -/

/-- The words of an instruction: its opcode number, then its operand words in the order of its operand list (R47,
R48, R53). -/
def encode : Instr → List Word
  | .halt => [0]
  | .set a b => [1, a.code, b.code]
  | .push b => [2, b.code]
  | .pop a => [3, a.code]
  | .eq a b c => [4, a.code, b.code, c.code]
  | .gt a b c => [5, a.code, b.code, c.code]
  | .jmp x => [6, x]
  | .jt b x => [7, b.code, x.code]
  | .jf b x => [8, b.code, x.code]
  | .add a b c => [9, a.code, b.code, c.code]
  | .mult a b c => [10, a.code, b.code, c.code]
  | .mod a b c => [11, a.code, b.code, c.code]
  | .and a b c => [12, a.code, b.code, c.code]
  | .or a b c => [13, a.code, b.code, c.code]
  | .not a b => [14, a.code, b.code]
  | .rmem a x => [15, a.code, x.code]
  | .wmem x b => [16, x.code, b.code]
  | .call x => [17, x.code]
  | .ret => [18]
  | .output b => [19, b.code]
  | .input a => [20, a.code]
  | .noop => [21]

/-! ### The host's numbering of a table row's bits -/

/-- The four words, first word lowest, of an instruction whose bits below `nbits` are `w` and whose other bits are 0. -/
def tableWords (nbits w : Nat) : List Word :=
  let bits := w % 2 ^ nbits
  [BitVec.ofNat 16 bits, BitVec.ofNat 16 (bits / 2 ^ 16), BitVec.ofNat 16 (bits / 2 ^ 32), BitVec.ofNat 16 (bits / 2 ^ 48)]

/-- What the decoder reads from the bytes of those words. -/
def decodeTableWord (nbits w : Nat) : Option Instr :=
  match decodeBytes (bytesOfWords (tableWords nbits w)) with
  | .ok (i, _) => some i
  | .error _ => none

end Sys2Proof
end

