-- ==== Sys2Proof/Machine/State.lean ====
section
/-! DEFINITION. The state of one machine instance as plain data, the reasons a step can stop, and the state after
reset: 10_state.md R13 to R30, 60_exceptions.md R114. -/

namespace Sys2Proof.Machine

/-- Memory as byte cells: cell `a` of the spec (10_state.md R19) is the bytes at `2a` (low) and `2a+1` (high), the
numbering of the image's bytes (20_memory.md R32). Canonical form: `Memory.wf`. DESIGN CHOICE, safe: log entry 1. -/
abbrev Memory := List Host.Cell

/-- The program counter, an integer in 0..65536; 65536 is one past the last cell (R16). -/
abbrev Pc := Fin 65537

/-- The fault kinds the latch can hold (60_exceptions.md R114); `None` is `Option.none`. -/
inductive FaultKind where
  /-- Code 1: an Invalid code where a value is read (R116). -/
  | malformedOperand
  /-- Code 2: a destination that is no Register code (R117). -/
  | invalidWriteTarget
  /-- Code 3: POP or RET on an empty stack (R118). -/
  | stackUnderflow
  /-- Code 4: an opcode word of 22 or more (R119). -/
  | invalidOpcode
  /-- Code 5: MOD by zero (R120). -/
  | modByZero
  /-- Code 6: a fetch at 65536, or a CALL whose return address is 65536 (R121). -/
  | pcOutOfRange
  /-- Code 7: a push on a full stack (R122). -/
  | stackOverflow
deriving DecidableEq, Repr

/-- What a `raise` carries: the kind, and the word R114's column "info recorded" names, if any. -/
structure Trap where
  kind : FaultKind
  info : Option Word
deriving DecidableEq, Repr

/-- The machine (R13, R27). -/
structure State where
  /-- `Mem` (R19). -/
  mem : Memory
  /-- `x[0..7]`, registers R0 to R7 (R14). -/
  regs : Vector Word 8
  /-- `stack`, top first (R20). -/
  stack : List Word
  /-- `pc` (R16). -/
  pc : Pc
  /-- `running`: true in state Running, false in state Halted (R22). -/
  running : Bool
  /-- `fault`, the latch (R23). -/
  fault : Option FaultKind
  /-- The latched fault's info, kept beside the kind as R114 allows. DESIGN CHOICE, safe: log entry 9. -/
  faultInfo : Option Word
  /-- `halt_notice`, raised by HALT (R27). -/
  haltNotice : Bool
  /-- `out`, oldest byte first (R27). -/
  output : List Byte
  /-- `in`: the bytes the console delivers, next byte first (R27). DESIGN CHOICE, safe: log entry 4. -/
  input : List Byte
  /-- STACK_CAPACITY, fixed for a launch; `none` is unbounded (R21). DESIGN CHOICE, safe: log entry 5. -/
  stackCapacity : Option Nat
deriving DecidableEq, Repr

/-- Why a step has no next state. The faults of the SPEC are not here: each is a next state with the latch written and
the machine halted (60_exceptions.md R115; log entry 6). -/
inductive Fault where
  /-- Given by `step` alone, in state Halted: there is no step (40_step_and_resolver.md R76). Safe: the machine stays as
  it is and no claim about a next state follows. Log entry 7. -/
  | halted
deriving DecidableEq, Repr

/-- Why an instruction has no meaning in the model. -/
inductive Refusal where
  /-- Given by an arm of `exec` whose instruction has no meaning yet; no arm gives it. Safe. -/
  | notModelled (mnemonic : String)
deriving DecidableEq, Repr

/-- What a step or an instruction answers. -/
abbrev Result := Host.Outcome State Fault Refusal

/-- The machine right after reset (R29), for the launch of the empty image at start address 0 with no input and the
default, unbounded stack. DESIGN CHOICE, unsafe: log entries 2, 4 and 5; every other launch is `launch`. -/
def State.reset : State where
  mem := []
  regs := Vector.replicate 8 0
  stack := []
  pc := 0
  running := true
  fault := none
  faultInfo := none
  haltNotice := false
  output := []
  input := []
  stackCapacity := none

end Sys2Proof.Machine
end

