-- ==== Sys2Proof/Machine/Ops.lean ====
section
/-! DEFINITION. The named operations over memory, registers, stack, console and program counter, and the raising of a
fault: 00_scope.md R10's primitives. There is no return from a fault (60_exceptions.md R125). -/

namespace Sys2Proof.Machine

/-! ### Memory -/

/-- What an unlisted byte reads as: cells beyond the image are 0 (10_state.md R29). -/
def unlistedByte : Byte := 0

/-- Put a byte in front of a memory whose addresses are all higher, unless it need not be listed. -/
def Memory.consByte (a : Nat) (b : Byte) (m : Memory) : Memory :=
  if b = unlistedByte then m else (a, b) :: m

/-- The byte at a byte address. -/
def Memory.readByte : Memory → Nat → Byte
  | [], _ => unlistedByte
  | (k, b) :: m, a => if k = a then b else Memory.readByte m a

/-- Set the byte at a byte address, keeping the canonical form. -/
def Memory.writeByte : Memory → Nat → Byte → Memory
  | [], a, b => Memory.consByte a b []
  | (k, c) :: m, a, b =>
    if a < k then Memory.consByte a b ((k, c) :: m)
    else if a = k then Memory.consByte a b m
    else (k, c) :: Memory.writeByte m a b

/-- Addresses rise strictly from `lo`, lie in the address space, and no byte listed is what an unlisted one reads as. -/
def Memory.wfFrom : Nat → Memory → Bool
  | _, [] => true
  | lo, (k, b) :: m =>
    decide (lo ≤ k) && decide (k < 2 * Config.memCells) && decide (b ≠ unlistedByte) && Memory.wfFrom (k + 1) m

/-- The canonical form of memory. -/
def Memory.wf (m : Memory) : Bool := Memory.wfFrom 0 m

/-- `MemRead(addr, 1)` (20_memory.md R34): the cell at `a`. It cannot fail. -/
def Memory.readCell (m : Memory) (a : Word) : Word :=
  wordOfBytes (m.readByte (2 * a.toNat)) (m.readByte (2 * a.toNat + 1))

/-- `MemWrite(addr, 1, v)` (R35): all 16 bits of the cell at `a`, and no other cell. It cannot fail. -/
def Memory.writeCell (m : Memory) (a v : Word) : Memory :=
  Memory.writeByte (Memory.writeByte m (2 * a.toNat) (lowByte v)) (2 * a.toNat + 1) (highByte v)

/-- The memory that holds the bytes `bs` from byte address `a` on and 0 elsewhere (70_reset_and_hazards.md R135). -/
def Memory.ofBytesFrom : Nat → List Byte → Memory
  | _, [] => []
  | a, b :: bs => Memory.consByte a b (Memory.ofBytesFrom (a + 1) bs)

/-- Store words in consecutive cells from cell `a` on, as far as the address space goes. -/
def Memory.storeWords : Memory → Nat → List Word → Memory
  | m, _, [] => m
  | m, a, w :: ws =>
    if a < Config.memCells then Memory.storeWords (m.writeCell (BitVec.ofNat 16 a) w) (a + 1) ws else m

/-! ### Registers -/

/-- `x[i]` (10_state.md R14). -/
def State.readReg (s : State) (r : Fin 8) : Word := s.regs[r]

/-- `x[i] <- v`, all 16 bits (R14). No register is hardwired. -/
def State.writeReg (s : State) (r : Fin 8) (v : Word) : State := { s with regs := s.regs.set r v }

/-! ### Program counter -/

/-- `pc <- t` for a word `t` (R16). -/
def State.setPc (s : State) (t : Word) : State :=
  { s with pc := ⟨t.toNat, Nat.lt_trans t.isLt (by decide)⟩ }

/-- Move the counter past `n` words. It does not wrap: it stands at 65536 at most (R16, R18). -/
def State.advance (s : State) (n : Nat) : State :=
  { s with pc := ⟨min (s.pc.val + n) 65536, by omega⟩ }

/-- Put the counter back `n` words: a held instruction waits at the state before it (48_io.md R112). -/
def State.retreat (s : State) (n : Nat) : State :=
  { s with pc := ⟨s.pc.val - n, by omega⟩ }

/-- The counter as a word, where it is one (47_call.md R106 tests that it is). -/
def State.pcWord (s : State) : Word := BitVec.ofNat 16 s.pc.val

/-! ### Value stack -/

/-- `Push(v)` (40_step_and_resolver.md R70). -/
def State.push (s : State) (v : Word) : Except Trap State :=
  if s.stackCapacity = some s.stack.length then .error ⟨.stackOverflow, none⟩
  else .ok { s with stack := v :: s.stack }

/-- `StackEmpty()` and `Pop()` in one: the top and the state without it, or StackUnderflow (R71). -/
def State.pop (s : State) : Except Trap (Word × State) :=
  match s.stack with
  | [] => .error ⟨.stackUnderflow, none⟩
  | v :: rest => .ok (v, { s with stack := rest })

/-! ### Console -/

/-- `ConsoleWrite(byte)` (80_interfaces.md R151). -/
def State.consoleWrite (s : State) (b : Byte) : State := { s with output := s.output ++ [b] }

/-- `ConsoleRead()` (R152): the next byte and the state without it, or `none` while there is no byte. -/
def State.consoleRead (s : State) : Option (Byte × State) :=
  match s.input with
  | [] => none
  | b :: rest => some (b, { s with input := rest })

/-- The console delivers bytes to the end of the input stream (R152, R153). -/
def State.deliver (s : State) (bs : List Byte) : State := { s with input := s.input ++ bs }

/-! ### Taking a fault, and halting -/

/-- `raise F(info)` (60_exceptions.md R115): latch the kind, and beside it its info, if nothing is latched; clear the
running flag. The rest of the instruction is abandoned by whoever raises. -/
def State.raise (s : State) (t : Trap) : State :=
  match s.fault with
  | none => { s with fault := some t.kind, faultInfo := t.info, running := false }
  | some _ => { s with running := false }

/-- A fault ends the step: its state is the next state (R115; log entry 6). -/
def raised (s : State) (t : Trap) : Result := .next (s.raise t)

/-- The halt notice is raised and the running flag cleared (41_system.md R77). -/
def State.halt (s : State) : State := { s with haltNotice := true, running := false }

/-- The code of the latch's value (60_exceptions.md R114). -/
def faultCode : Option FaultKind → Nat
  | none => 0
  | some .malformedOperand => 1
  | some .invalidWriteTarget => 2
  | some .stackUnderflow => 3
  | some .invalidOpcode => 4
  | some .modByZero => 5
  | some .pcOutOfRange => 6
  | some .stackOverflow => 7

end Sys2Proof.Machine
end

