-- ==== Sys2Proof/Machine/Operands.lean ====
section
/-! DEFINITION. The Operand Resolver: reading a source, writing a destination (40_step_and_resolver.md R68, R69, R72,
R73). -/

namespace Sys2Proof.Machine

/-- `Resolve(code)` (R68): one level only; a register's content is a plain value. -/
def resolve (s : State) : Operand → Except Trap Word
  | .literal v => .ok (v.setWidth 16)
  | .register r => .ok (s.readReg r)
  | .invalid code => .error ⟨.malformedOperand, some code⟩

/-- `WriteDest(code, v)` (R69), the last line of every instruction with a destination. -/
def writeDest (s : State) (a : Operand) (v : Word) : Result :=
  match a with
  | .register r => .next (s.writeReg r v)
  | .literal n => raised s ⟨.invalidWriteTarget, some (n.setWidth 16)⟩
  | .invalid code => raised s ⟨.invalidWriteTarget, some code⟩

/-- Resolve one operand and go on with its value, or raise (R72). -/
def withValue (s : State) (o : Operand) (k : Word → Result) : Result :=
  match resolve s o with
  | .error t => raised s t
  | .ok v => k v

/-- Resolve two operands, left to right, and go on with their values (R72). -/
def withValues (s : State) (o p : Operand) (k : Word → Word → Result) : Result :=
  withValue s o fun v => withValue s p fun w => k v w

end Sys2Proof.Machine
end

