-- ==== Sys2Proof/Machine/Alu.lean ====
section
/-! DEFINITION. ADD, MULT, MOD, AND, OR, NOT: 45_alu.md R92 to R98. Sums, products and remainders are formed exactly on
natural numbers, then reduced (R92). -/

namespace Sys2Proof.Machine

/-- `(vb + vc) mod 32768` (R93). -/
def aluAdd (vb vc : Word) : Word := BitVec.ofNat 16 ((vb.toNat + vc.toNat) % Config.arithModulus)

/-- `(vb * vc) mod 32768` (R94). -/
def aluMult (vb vc : Word) : Word := BitVec.ofNat 16 (vb.toNat * vc.toNat % Config.arithModulus)

/-- `vb mod vc` for a `vc` that is not 0 (R95): not reduced further. -/
def aluMod (vb vc : Word) : Word := BitVec.ofNat 16 (vb.toNat % vc.toNat)

/-- `(~vb) & 0x7FFF` (R98). -/
def aluNot (vb : Word) : Word := ~~~vb &&& Config.notMask

/-- ADD a,b,c (R93). -/
def execAdd (a b c : Operand) (s : State) : Result :=
  withValues s b c fun vb vc => writeDest s a (aluAdd vb vc)

/-- MULT a,b,c (R94). -/
def execMult (a b c : Operand) (s : State) : Result :=
  withValues s b c fun vb vc => writeDest s a (aluMult vb vc)

/-- MOD a,b,c (R95): the divisor is checked before the destination. -/
def execMod (a b c : Operand) (s : State) : Result :=
  withValues s b c fun vb vc =>
    if vc = 0 then raised s ⟨.modByZero, none⟩ else writeDest s a (aluMod vb vc)

/-- AND a,b,c (R96): all 16 bits. -/
def execAnd (a b c : Operand) (s : State) : Result :=
  withValues s b c fun vb vc => writeDest s a (vb &&& vc)

/-- OR a,b,c (R97): all 16 bits. -/
def execOr (a b c : Operand) (s : State) : Result :=
  withValues s b c fun vb vc => writeDest s a (vb ||| vc)

/-- NOT a,b (R98). -/
def execNot (a b : Operand) (s : State) : Result :=
  withValue s b fun vb => writeDest s a (aluNot vb)

end Sys2Proof.Machine
end

