-- ==== Sys2Proof/Machine/Call.lean ====
section
/-! DEFINITION. CALL and RET: 47_call.md R106, R107. -/

namespace Sys2Proof.Machine

/-- CALL x (R106): the return address is pushed before the target is resolved. -/
def execCall (x : Operand) (s : State) : Result :=
  if s.pc.val = Config.memCells then raised s ⟨.pcOutOfRange, none⟩
  else
    match s.push s.pcWord with
    | .error t => raised s t
    | .ok s' => withValue s' x fun t => .next (s'.setPc t)

/-- RET (R107): the popped word, raw, is the new pc. -/
def execRet (s : State) : Result :=
  match s.pop with
  | .error t => raised s t
  | .ok (v, s') => .next (s'.setPc v)

end Sys2Proof.Machine
end

