-- ==== Sys2Proof/Machine/Flags.lean ====
section
/-! DEFINITION. The machine has no flags (10_state.md R24). What other machines do with flags it does with values: EQ
and GT make the word 0 or 1 (43_compare.md R86), JT and JF test a word for zero (44_jump.md R88, R89). -/

namespace Sys2Proof.Machine

/-- A truth value as the word 1 or 0 (43_compare.md R84, R85). -/
def truthWord (p : Bool) : Word := if p then 1 else 0

/-- Whether a value is zero, on all 16 bits (44_jump.md R88, R89). -/
def isZero (v : Word) : Bool := v == 0

end Sys2Proof.Machine
end

