-- ==== Sys2Proof/Machine/Compare.lean ====
section
/-! DEFINITION. EQ and GT: 43_compare.md R84, R85. -/

namespace Sys2Proof.Machine

/-- EQ a,b,c (R84). -/
def execEq (a b c : Operand) (s : State) : Result :=
  withValues s b c fun vb vc => writeDest s a (truthWord (vb == vc))

/-- GT a,b,c (R85): unsigned. -/
def execGt (a b c : Operand) (s : State) : Result :=
  withValues s b c fun vb vc => writeDest s a (truthWord (decide (vb.toNat > vc.toNat)))

end Sys2Proof.Machine
end

