-- ==== Sys2Proof/Machine/Console.lean ====
section
/-! DEFINITION. OUTPUT and INPUT: 48_io.md R110 to R112. -/

namespace Sys2Proof.Machine

/-- OUTPUT b (R110): the low 8 bits. -/
def execOutput (b : Operand) (s : State) : Result :=
  withValue s b fun vb => .next (s.consoleWrite (lowByte vb))

/-- INPUT a (R111): the byte is taken before the destination is checked. While there is no byte the machine is held at
the state before the INPUT (R112), its two words not yet fetched: DESIGN CHOICE, safe, log entry 8. -/
def execInput (a : Operand) (s : State) : Result :=
  match s.consoleRead with
  | none => .next (s.retreat 2)
  | some (ch, s') => writeDest s' a (ch.setWidth 16)

end Sys2Proof.Machine
end

