-- ==== Sys2Proof/Machine/Jump.lean ====
section
/-! DEFINITION. JMP, JT, JF: 44_jump.md R87 to R89. -/

namespace Sys2Proof.Machine

/-- JMP x (R87): the operand word itself, neither classified nor resolved. -/
def execJmp (x : Word) (s : State) : Result := .next (s.setPc x)

/-- JT b,x (R88): the target is resolved only when the jump is taken. -/
def execJt (b x : Operand) (s : State) : Result :=
  withValue s b fun vb =>
    if isZero vb then .next s else withValue s x fun t => .next (s.setPc t)

/-- JF b,x (R89): the target is resolved only when the jump is taken. -/
def execJf (b x : Operand) (s : State) : Result :=
  withValue s b fun vb =>
    if isZero vb then withValue s x fun t => .next (s.setPc t) else .next s

end Sys2Proof.Machine
end

