-- ==== Sys2Proof/Machine/MemoryAccess.lean ====
section
/-! DEFINITION. RMEM and WMEM: 46_memory_access.md R102, R103. -/

namespace Sys2Proof.Machine

/-- RMEM a,x (R102). -/
def execRmem (a x : Operand) (s : State) : Result :=
  withValue s x fun addr => writeDest s a (s.mem.readCell addr)

/-- WMEM x,b (R103): the address word comes first. -/
def execWmem (x b : Operand) (s : State) : Result :=
  withValues s x b fun addr vb => .next { s with mem := s.mem.writeCell addr vb }

end Sys2Proof.Machine
end

