-- ==== Sys2Proof/Machine/MoveStack.lean ====
section
/-! DEFINITION. SET, PUSH, POP: 42_move_stack.md R80 to R82. -/

namespace Sys2Proof.Machine

/-- SET a,b (R80). -/
def execSet (a b : Operand) (s : State) : Result :=
  withValue s b fun vb => writeDest s a vb

/-- PUSH b (R81). -/
def execPush (b : Operand) (s : State) : Result :=
  withValue s b fun vb =>
    match s.push vb with
    | .error t => raised s t
    | .ok s' => .next s'

/-- POP a (R82): the value is popped before the destination is checked. -/
def execPop (a : Operand) (s : State) : Result :=
  match s.pop with
  | .error t => raised s t
  | .ok (v, s') => writeDest s' a v

end Sys2Proof.Machine
end

