-- ==== Sys2Proof/Machine/System.lean ====
section
/-! DEFINITION. HALT and NOOP: 41_system.md R77, R78. Every meaning starts at the state after the fetch phase, `pc = p
+ 1 + k` (40_step_and_resolver.md R64; log entry 11). -/

namespace Sys2Proof.Machine

/-- HALT (R77). -/
def execHalt (s : State) : Result := .next s.halt

/-- NOOP (R78): no effect. -/
def execNoop (s : State) : Result := .next s

end Sys2Proof.Machine
end

