-- ==== Sys2Proof/Machine/Dispatch.lean ====
section
/-! DEFINITION. The instruction rule of each opcode (40_step_and_resolver.md R63), run at the state after the fetch
phase. -/

namespace Sys2Proof.Machine

def exec (i : Instr) (s : State) : Host.Outcome State Fault Refusal :=
  match i with
  | .halt => Sys2Proof.Machine.execHalt s
  | .set a b => Sys2Proof.Machine.execSet a b s
  | .push b => Sys2Proof.Machine.execPush b s
  | .pop a => Sys2Proof.Machine.execPop a s
  | .eq a b c => Sys2Proof.Machine.execEq a b c s
  | .gt a b c => Sys2Proof.Machine.execGt a b c s
  | .jmp x => Sys2Proof.Machine.execJmp x s
  | .jt b x => Sys2Proof.Machine.execJt b x s
  | .jf b x => Sys2Proof.Machine.execJf b x s
  | .add a b c => Sys2Proof.Machine.execAdd a b c s
  | .mult a b c => Sys2Proof.Machine.execMult a b c s
  | .mod a b c => Sys2Proof.Machine.execMod a b c s
  | .and a b c => Sys2Proof.Machine.execAnd a b c s
  | .or a b c => Sys2Proof.Machine.execOr a b c s
  | .not a b => Sys2Proof.Machine.execNot a b s
  | .rmem a x => Sys2Proof.Machine.execRmem a x s
  | .wmem x b => Sys2Proof.Machine.execWmem x b s
  | .call x => Sys2Proof.Machine.execCall x s
  | .ret => Sys2Proof.Machine.execRet s
  | .output b => Sys2Proof.Machine.execOutput b s
  | .input a => Sys2Proof.Machine.execInput a s
  | .noop => Sys2Proof.Machine.execNoop s

end Sys2Proof.Machine
end

