-- ==== Sys2Proof/Machine/Fetch.lean ====
section
/-! DEFINITION. The fetch phase: 40_step_and_resolver.md R63 to R66. -/

namespace Sys2Proof.Machine

/-- `Fetch()` (R65): the word at `pc` and the state with `pc` one further, or the state after the PcOutOfRange. -/
def fetch (s : State) : Except State (Word × State) :=
  if s.pc.val = Config.memCells then .error (s.raise ⟨.pcOutOfRange, none⟩)
  else .ok (s.mem.readCell s.pcWord, s.advance 1)

/-- The opcode word and then exactly its operand words, in order (R63, R66): the instruction and the state after the
fetch phase, or the state after the PcOutOfRange or InvalidOpcode that was raised. -/
def fetchInstr (s : State) : Except State (Instr × State) :=
  decodeFrom fetch (fun op t => t.raise ⟨.invalidOpcode, some op⟩) s

/-- Up to `n` words of memory from the counter on, as far as the address space goes. -/
def State.wordsAtPc (s : State) (n : Nat) : List Word :=
  (List.range (min n (Config.memCells - s.pc.val))).map fun j => s.mem.readCell (BitVec.ofNat 16 (s.pc.val + j))

end Sys2Proof.Machine
end

