-- ==== Sys2Proof/Machine/Step.lean ====
section
/-! DEFINITION. `Step()`: 40_step_and_resolver.md R63, R76. -/

namespace Sys2Proof.Machine

/-- One iteration of the Dispatcher's loop (R63). In state Halted there is no step (R76). -/
def step (s : State) : Host.Outcome State Fault Refusal :=
  match s.running with
  | false => .fault .halted
  | true =>
    match fetchInstr s with
    | .error t => .next t
    | .ok (i, t) => exec i t

/-- The state with the words of a table row's instruction stored from the counter on: what a load of that program at
the counter leaves in memory (log entry 3). -/
def State.withFetchWord (s : State) (nbits w : Nat) : State :=
  { s with mem := s.mem.storeWords s.pc.val (tableWords nbits w) }

end Sys2Proof.Machine
end

