-- ==== Sys2Proof/Machine/Launch.lean ====
section
/-! DEFINITION. Launching the machine and running it to its end: 70_reset_and_hazards.md R132 to R137,
80_interfaces.md R147, R148. -/

namespace Sys2Proof.Machine

/-- Why a launch is refused (R137): there is no run. Safe: log entry 14. -/
inductive LoadFailure where
  /-- The image's last byte is half a word. -/
  | oddLength
  /-- The image has more than 65536 words. -/
  | tooLong
deriving DecidableEq, Repr

/-- Launch steps (2) to (5) of R134: the state in which `run(start)` begins stepping, at the reset values of 10_state.md
R29, or the refusal of R137. `capacity` is STACK_CAPACITY, `none` the default, unbounded. -/
def launch (image : List Byte) (start : Word) (input : List Byte) (capacity : Option Nat) :
    Except LoadFailure State :=
  if image.length % 2 = 1 then .error .oddLength
  else if Config.maxImageBytes < image.length then .error .tooLong
  else .ok ({ State.reset with
    mem := Memory.ofBytesFrom 0 image, input := input, stackCapacity := capacity }.setPc start)

/-- `run` (80_interfaces.md R148): step while the running flag is set, and return the state when it is clear. The fuel
bounds the steps of the model alone: the machine has no bound (R145; log entry 16). -/
def runUntilHalted : Nat → State → Option State
  | 0, s => if s.running then none else some s
  | fuel + 1, s =>
    if s.running then
      match step s with
      | .next t => runUntilHalted fuel t
      | .fault _ => none
      | .refused _ => none
    else some s

end Sys2Proof.Machine
end

