-- ==== Sys2Proof/Safety.lean ====
section
/-! DEFINITION. The terms claims are stated in: how a run stands (70_reset_and_hazards.md R139), the invariant of the
machine's state, what stands in memory at the counter, and the clauses that the rules of many instructions share. -/

namespace Sys2Proof.Machine

/-! ### How a run stands -/

/-- The final state of a correct run: halted by HALT (R139). -/
abbrev State.final (s : State) : Prop := s.running = false ∧ s.fault = none ∧ s.haltNotice = true

/-- Stopped by a fault: over, but never final (R139). -/
abbrev State.stopped (s : State) : Prop := s.running = false ∧ s.fault ≠ none ∧ s.haltNotice = false

/-- Held at an INPUT with no byte available (48_io.md R112): neither halted nor final. -/
abbrev State.held (s : State) : Prop := s.running = true ∧ s.input = [] ∧ ∃ a t, fetchInstr s = .ok (.input a, t)

/-! ### The invariant -/

/-- The stack is within its capacity (10_state.md R21). -/
abbrev State.stackFits (s : State) : Prop := ∀ n ∈ s.stackCapacity, s.stack.length ≤ n

/-- The end of a run is one of two cases (R23, R139): while running nothing is latched and no notice is raised; once
halted, the notice is raised exactly when nothing is latched. The info stands only beside a latched kind (60_exceptions.md
R114). -/
abbrev State.statusOk (s : State) : Prop :=
  (s.running = true → s.fault = none ∧ s.haltNotice = false) ∧
  (s.running = false → (s.haltNotice = true ↔ s.fault = none)) ∧
  (s.fault = none → s.faultInfo = none)

/-- What holds at every launch and every step keeps. -/
abbrev State.inv (s : State) : Prop := s.mem.wf = true ∧ s.stackFits ∧ s.statusOk

/-! ### What stands at the counter -/

/-- The words `ws` stand in consecutive cells from the counter on, all within the address space. -/
abbrev codeAt (s : State) (ws : List Word) : Prop :=
  s.pc.val + ws.length ≤ 65536 ∧
  ∀ j (h : j < ws.length), s.mem.readCell (BitVec.ofNat 16 (s.pc.val + j)) = ws[j]

/-- The words `ws`, wherever they stand at the counter of a running machine, run as the instruction `i`: the step is
the instruction's own rule at the state whose counter has moved past them (40_step_and_resolver.md R63, R64). -/
def runsAs (ws : List Word) (i : Instr) : Prop :=
  i.wellFormed = true → ∀ s : State, s.running = true → codeAt s ws →
    (s.advance ws.length).pc.val = s.pc.val + ws.length ∧ step s = exec i (s.advance ws.length)

/-- The operand count of an opcode number (30_encoding.md R53, the column "words" less one). -/
def operandCount (op : Nat) : Nat :=
  [0, 2, 1, 1, 3, 3, 1, 2, 2, 3, 3, 3, 3, 3, 2, 2, 2, 1, 0, 1, 1, 0].getD op 0

/-- The destination operand of an instruction that has one (10_state.md R15). -/
def destination : Instr → Option Operand
  | .set a _ | .pop a | .eq a _ _ | .gt a _ _ | .add a _ _ | .mult a _ _ | .mod a _ _ | .and a _ _ | .or a _ _
  | .not a _ | .rmem a _ | .input a => some a
  | .halt | .push _ | .jmp _ | .jt _ _ | .jf _ _ | .wmem _ _ | .call _ | .ret | .output _ | .noop => none

/-! ### Clauses that rules share -/

/-- An Invalid code in the source position `b` ends the instruction in MalformedOperand, with nothing else changed. -/
abbrev sourceChecked (i : Instr) (s : State) (b : Operand) : Prop :=
  ∀ code, b = .invalid code → exec i s = .next (s.raise ⟨.malformedOperand, some code⟩)

/-- The source `b` is checked first, then the source `c`. -/
abbrev sourcesChecked (i : Instr) (s : State) (b c : Operand) : Prop :=
  sourceChecked i s b ∧
  ∀ vb code, resolve s b = .ok vb → c = .invalid code → exec i s = .next (s.raise ⟨.malformedOperand, some code⟩)

/-- The value `v` goes to the register the destination `a` names and nothing else changes; or, where `a` is no Register
code, the instruction ends in InvalidWriteTarget and nothing else changes. -/
abbrev writesTo (i : Instr) (s : State) (a : Operand) (v : Word) : Prop :=
  (∀ r, a = .register r → exec i s = .next { s with regs := s.regs.set r v }) ∧
  ((∀ r, a ≠ .register r) → exec i s = .next (s.raise ⟨.invalidWriteTarget, some a.code⟩))

/-- The counter goes to the cell `x` and nothing else changes. -/
abbrev goesTo (i : Instr) (s : State) (x : Word) : Prop :=
  ∃ t, exec i s = .next t ∧ t.pc.val = x.toNat ∧ t = { s with pc := t.pc }

end Sys2Proof.Machine
end

