-- ==== Sys2Proof/Certificates/Slice0/Obligations.lean ====
section
/-! DEFINITION. The statements for the provers. Each docstring names the rules of spec/ it formalises. Where a state
stands beside `exec`, it is the state after the fetch phase, `pc = p + 1 + k` (40_step_and_resolver.md R64). -/

open Sys2Proof Sys2Proof.Machine

/-! ### Encoding -/

/-- Decoding the words of any well-formed instruction, whatever follows them, gives the instruction and what follows
(30_encoding.md R47, R53, R54). -/
def Obligations.DecodeOfEncode : Prop :=
  ∀ (i : Instr) (rest : List Word), i.wellFormed = true → decode (encode i ++ rest) = .ok (i, rest)

/-- What decodes is well formed, and the words taken are exactly its encoding: no two word lists share a reading (R47,
R54). -/
def Obligations.EncodeOfDecode : Prop :=
  ∀ (ws rest : List Word) (i : Instr), decode ws = .ok (i, rest) → i.wellFormed = true ∧ ws = encode i ++ rest

/-- The image bytes of an instruction's words, low byte first, decode to it (20_memory.md R32; 30_encoding.md R62). -/
def Obligations.ImageBytesDecode : Prop :=
  ∀ (i : Instr) (bs : List Byte), i.wellFormed = true → decodeBytes (bytesOfWords (encode i) ++ bs) = .ok (i, bs)

/-- Words written out from the opcode map, one of each family, decode to their instructions (30_encoding.md R53;
95_test_vectors.md E1a, E1b). -/
def Obligations.SampleWordsDecode : Prop :=
  decode [9, 32768, 32769, 4] = .ok (.add (.register 0) (.register 1) (.literal 4), []) ∧
  decode [19, 32768] = .ok (.output (.register 0), []) ∧
  decode [0] = .ok (.halt, []) ∧
  decode [1, 32768, 4] = .ok (.set (.register 0) (.literal 4), []) ∧
  decode [4, 32775, 5, 32776] = .ok (.eq (.register 7) (.literal 5) (.invalid 32776), []) ∧
  decode [6, 32768] = .ok (.jmp 32768, []) ∧
  decode [16, 200, 32769] = .ok (.wmem (.literal 200) (.register 1), []) ∧
  decode [17, 300] = .ok (.call (.literal 300), [])

/-- An opcode word of 22 or more selects no instruction, and every smaller one selects one once its operand words are
there (30_encoding.md R53, R55). -/
def Obligations.OpcodeRange : Prop :=
  ∀ (op a b c : Word) (ws : List Word),
    (22 ≤ op.toNat → decode (op :: ws) = .error (.invalidOpcode op)) ∧
    (op.toNat < 22 → ∃ i rest, decode (op :: a :: b :: c :: ws) = .ok (i, rest))

/-- `Classify`: 0 to 32767 Literal, 32768 to 32775 Register, 32776 and above Invalid (40_step_and_resolver.md R67). -/
def Obligations.ClassifyRanges : Prop :=
  ∀ code : Word,
    (code.toNat ≤ 32767 → classify code = .literal) ∧
    (32768 ≤ code.toNat ∧ code.toNat ≤ 32775 → classify code = .register) ∧
    (32776 ≤ code.toNat → classify code = .invalid)

/-! ### The shared operations -/

/-- `Resolve(code)`: a Literal is the code itself, a Register its content whatever that is, an Invalid code raises
MalformedOperand (40_step_and_resolver.md R68). -/
def Obligations.ResolveByClass : Prop :=
  ∀ (s : State) (code : Word),
    (code.toNat ≤ 32767 → resolve s (.ofWord code) = .ok code) ∧
    (∀ r : Fin 8, code.toNat = 32768 + r.val → resolve s (.ofWord code) = .ok s.regs[r]) ∧
    (32776 ≤ code.toNat → resolve s (.ofWord code) = .error ⟨.malformedOperand, some code⟩)

/-- `WriteDest(code, v)`: all 16 bits go to the register the code names, and no other register changes; any other code
raises InvalidWriteTarget with nothing written (40_step_and_resolver.md R69). -/
def Obligations.WriteDestByClass : Prop :=
  ∀ (s : State) (code v : Word),
    (∀ r : Fin 8, code.toNat = 32768 + r.val →
      ∃ t, writeDest s (.ofWord code) v = .next t ∧ t.regs[r] = v ∧ (∀ q : Fin 8, q ≠ r → t.regs[q] = s.regs[q]) ∧
        t = { s with regs := t.regs }) ∧
    (code.toNat ≤ 32767 ∨ 32776 ≤ code.toNat →
      writeDest s (.ofWord code) v = .next (s.raise ⟨.invalidWriteTarget, some code⟩))

/-- `Push(v)`: on a full stack StackOverflow with the stack unchanged, else `v` becomes the top (40_step_and_resolver.md
R70; 10_state.md R21). -/
def Obligations.PushOnStack : Prop :=
  ∀ (s : State) (v : Word),
    (s.stackCapacity = some s.stack.length → s.push v = .error ⟨.stackOverflow, none⟩) ∧
    (s.stackCapacity ≠ some s.stack.length → s.push v = .ok { s with stack := v :: s.stack })

/-- `Pop()`: the top, and the state without it; an empty stack is never read (40_step_and_resolver.md R71). -/
def Obligations.PopOffStack : Prop :=
  ∀ (s : State),
    (s.stack = [] → s.pop = .error ⟨.stackUnderflow, none⟩) ∧
    (∀ v rest, s.stack = v :: rest → s.pop = .ok (v, { s with stack := rest }))

/-- `raise F(info)`: the kind is latched if none is, and the running flag is cleared (60_exceptions.md R115). That the
info is latched beside the kind, in a field of its own, is the model's choice, log entry 9 (R114 lets a model keep it or
drop it). Beyond these nothing changes. -/
def Obligations.RaiseLatchesOnce : Prop :=
  ∀ (s : State) (kind : FaultKind) (info : Option Word),
    (s.fault = none → s.raise ⟨kind, info⟩ = { s with fault := some kind, faultInfo := info, running := false }) ∧
    (s.fault ≠ none → s.raise ⟨kind, info⟩ = { s with running := false })

/-- `MemWrite` then `MemRead`: the cell holds the word and every other cell is unchanged (20_memory.md R34, R35). That the
memory has a canonical form, which the write keeps, and that cell `addr` is the bytes `2 * addr` and `2 * addr + 1`, with
every other byte unchanged, is the model's choice, log entry 1. -/
def Obligations.CellWriteThenRead : Prop :=
  ∀ (m : Memory) (addr v : Word),
    (m.wf = true → (m.writeCell addr v).readCell addr = v ∧ (m.writeCell addr v).wf = true) ∧
    (∀ x : Word, x ≠ addr → (m.writeCell addr v).readCell x = m.readCell x) ∧
    (∀ k : Nat, k ≠ 2 * addr.toNat → k ≠ 2 * addr.toNat + 1 → (m.writeCell addr v).readByte k = m.readByte k)

/-- Two canonical memories that read alike at every cell are the same data (the model's own form, log entry 1; the cells
of 10_state.md R19). -/
def Obligations.CanonicalMemoryIsUnique : Prop :=
  ∀ m m' : Memory, m.wf = true → m'.wf = true → (∀ a : Word, m.readCell a = m'.readCell a) → m = m'

/-! ### Fetch and step -/

/-- `Fetch()`: at 65536 PcOutOfRange, else the cell at `pc`, and `pc` one further, 65536 after 65535
(40_step_and_resolver.md R65). -/
def Obligations.FetchReadsAndAdvances : Prop :=
  ∀ s : State,
    (s.pc.val = 65536 → fetch s = .error (s.raise ⟨.pcOutOfRange, none⟩)) ∧
    (s.pc.val ≠ 65536 → ∃ t, fetch s = .ok (s.mem.readCell (BitVec.ofNat 16 s.pc.val), t) ∧
      t.pc.val = s.pc.val + 1 ∧ t = { s with pc := t.pc })

/-- When the words at the counter decode to an instruction, the step of a running machine is that instruction at the
state whose counter has moved past its words (40_step_and_resolver.md R63, R64, R66). -/
def Obligations.StepRunsDecodedInstr : Prop :=
  ∀ (s : State) (i : Instr) (rest : List Word), s.running = true → decode (s.wordsAtPc 4) = .ok (i, rest) →
    step s = exec i (s.advance (encode i).length) ∧
    (s.advance (encode i).length).pc.val = s.pc.val + (encode i).length

/-- In state Halted there is no step (40_step_and_resolver.md R76). That this is the host's outcome `fault` is the
model's choice, log entry 7. -/
def Obligations.HaltedHasNoStep : Prop :=
  ∀ s : State, s.running = false → step s = .fault .halted

/-- In state Running every step has a next state, whatever stands in memory, and a step leaves the run's earlier output as
it was (R63, R115; 80_interfaces.md R151, R153). For an INPUT with no byte available this is the model's choice, log entry
8: 48_io.md R112 says that its step is not enabled. That the stack capacity is a field of the state, which a step leaves
unchanged, is the model's choice too, log entry 5. -/
def Obligations.RunningAlwaysSteps : Prop :=
  ∀ s : State, s.running = true →
    ∃ t, step s = .next t ∧ t.stackCapacity = s.stackCapacity ∧ ∃ bs, bs.length ≤ 1 ∧ t.output = s.output ++ bs

/-- An opcode word of 22 or more raises InvalidOpcode after the opcode fetch, with nothing else changed: `pc = p + 1`
(60_exceptions.md R119; 30_encoding.md R55). -/
def Obligations.InvalidOpcodeFaults : Prop :=
  ∀ (s : State) (op : Word), s.running = true → codeAt s [op] → 22 ≤ op.toNat →
    (s.advance 1).pc.val = s.pc.val + 1 ∧ step s = .next ((s.advance 1).raise ⟨.invalidOpcode, some op⟩)

/-- PcOutOfRange: a fetch at 65536, of an opcode word or of an operand word, with `pc` left there; and a CALL whose
return address would be 65536 (60_exceptions.md R121). -/
def Obligations.PcOutOfRangeFaults : Prop :=
  (∀ s : State, s.running = true → s.pc.val = 65536 → step s = .next (s.raise ⟨.pcOutOfRange, none⟩)) ∧
  (∀ (s : State) (op : Word), s.running = true → codeAt s [op] → op.toNat ≤ 21 →
    65536 < s.pc.val + 1 + operandCount op.toNat →
    step s = .next ({ s with pc := 65536 }.raise ⟨.pcOutOfRange, none⟩)) ∧
  (∀ (s : State) (x : Operand), s.pc.val = 65536 → exec (.call x) s = .next (s.raise ⟨.pcOutOfRange, none⟩))

/-! ### The instructions -/

/-- HALT: the notice is raised, the running flag cleared, nothing else changes (41_system.md R77). -/
def Obligations.HaltStops : Prop :=
  runsAs [0] .halt ∧ ∀ s : State, exec .halt s = .next { s with haltNotice := true, running := false }

/-- NOOP: no effect (41_system.md R78). -/
def Obligations.NoopDoesNothing : Prop :=
  runsAs [21] .noop ∧ ∀ s : State, exec .noop s = .next s

/-- SET a,b (42_move_stack.md R80). -/
def Obligations.SetCopies : Prop :=
  ∀ a b : Operand, runsAs [1, a.code, b.code] (.set a b) ∧ ∀ s : State,
    sourceChecked (.set a b) s b ∧
    ∀ vb, resolve s b = .ok vb → writesTo (.set a b) s a vb

/-- PUSH b (42_move_stack.md R81). -/
def Obligations.PushPushes : Prop :=
  ∀ b : Operand, runsAs [2, b.code] (.push b) ∧ ∀ s : State,
    sourceChecked (.push b) s b ∧
    ∀ vb, resolve s b = .ok vb →
      (s.stackCapacity = some s.stack.length → exec (.push b) s = .next (s.raise ⟨.stackOverflow, none⟩)) ∧
      (s.stackCapacity ≠ some s.stack.length → exec (.push b) s = .next { s with stack := vb :: s.stack })

/-- POP a: on a bad destination the value is gone from the stack (42_move_stack.md R82). -/
def Obligations.PopPops : Prop :=
  ∀ a : Operand, runsAs [3, a.code] (.pop a) ∧ ∀ s : State,
    (s.stack = [] → exec (.pop a) s = .next (s.raise ⟨.stackUnderflow, none⟩)) ∧
    ∀ v rest, s.stack = v :: rest →
      (∀ r, a = .register r → exec (.pop a) s = .next { s with stack := rest, regs := s.regs.set r v }) ∧
      ((∀ r, a ≠ .register r) →
        exec (.pop a) s = .next ({ s with stack := rest }.raise ⟨.invalidWriteTarget, some a.code⟩))

/-- EQ a,b,c (43_compare.md R84). -/
def Obligations.EqCompares : Prop :=
  ∀ a b c : Operand, runsAs [4, a.code, b.code, c.code] (.eq a b c) ∧ ∀ s : State,
    sourcesChecked (.eq a b c) s b c ∧
    ∀ vb vc, resolve s b = .ok vb → resolve s c = .ok vc →
      writesTo (.eq a b c) s a (if vb.toNat = vc.toNat then 1 else 0)

/-- GT a,b,c: unsigned (43_compare.md R85). -/
def Obligations.GtCompares : Prop :=
  ∀ a b c : Operand, runsAs [5, a.code, b.code, c.code] (.gt a b c) ∧ ∀ s : State,
    sourcesChecked (.gt a b c) s b c ∧
    ∀ vb vc, resolve s b = .ok vb → resolve s c = .ok vc →
      writesTo (.gt a b c) s a (if vb.toNat > vc.toNat then 1 else 0)

/-- JMP x: the operand word itself is the new `pc`, whatever its class would be elsewhere (44_jump.md R87). -/
def Obligations.JmpGoesToRawWord : Prop :=
  ∀ x : Word, runsAs [6, x] (.jmp x) ∧ ∀ s : State, goesTo (.jmp x) s x

/-- JT b,x: the target is resolved only when `vb` is not 0 (44_jump.md R88). -/
def Obligations.JtJumpsIfNonzero : Prop :=
  ∀ b x : Operand, runsAs [7, b.code, x.code] (.jt b x) ∧ ∀ s : State,
    sourceChecked (.jt b x) s b ∧
    ∀ vb, resolve s b = .ok vb →
      (vb.toNat = 0 → exec (.jt b x) s = .next s) ∧
      (vb.toNat ≠ 0 → sourceChecked (.jt b x) s x ∧ ∀ t, resolve s x = .ok t → goesTo (.jt b x) s t)

/-- JF b,x: the target is resolved only when `vb` is 0 (44_jump.md R89). -/
def Obligations.JfJumpsIfZero : Prop :=
  ∀ b x : Operand, runsAs [8, b.code, x.code] (.jf b x) ∧ ∀ s : State,
    sourceChecked (.jf b x) s b ∧
    ∀ vb, resolve s b = .ok vb →
      (vb.toNat ≠ 0 → exec (.jf b x) s = .next s) ∧
      (vb.toNat = 0 → sourceChecked (.jf b x) s x ∧ ∀ t, resolve s x = .ok t → goesTo (.jf b x) s t)

/-- ADD a,b,c (45_alu.md R93). -/
def Obligations.AddIsSumMod32768 : Prop :=
  ∀ a b c : Operand, runsAs [9, a.code, b.code, c.code] (.add a b c) ∧ ∀ s : State,
    sourcesChecked (.add a b c) s b c ∧
    ∀ vb vc, resolve s b = .ok vb → resolve s c = .ok vc →
      writesTo (.add a b c) s a (BitVec.ofNat 16 ((vb.toNat + vc.toNat) % 32768))

/-- MULT a,b,c (45_alu.md R94). -/
def Obligations.MultIsProductMod32768 : Prop :=
  ∀ a b c : Operand, runsAs [10, a.code, b.code, c.code] (.mult a b c) ∧ ∀ s : State,
    sourcesChecked (.mult a b c) s b c ∧
    ∀ vb vc, resolve s b = .ok vb → resolve s c = .ok vc →
      writesTo (.mult a b c) s a (BitVec.ofNat 16 (vb.toNat * vc.toNat % 32768))

/-- MOD a,b,c: ModByZero before the destination is checked; the remainder is not reduced (45_alu.md R95;
60_exceptions.md R120). -/
def Obligations.ModIsRemainder : Prop :=
  ∀ a b c : Operand, runsAs [11, a.code, b.code, c.code] (.mod a b c) ∧ ∀ s : State,
    sourcesChecked (.mod a b c) s b c ∧
    ∀ vb vc, resolve s b = .ok vb → resolve s c = .ok vc →
      (vc.toNat = 0 → exec (.mod a b c) s = .next (s.raise ⟨.modByZero, none⟩)) ∧
      (vc.toNat ≠ 0 → writesTo (.mod a b c) s a (BitVec.ofNat 16 (vb.toNat % vc.toNat)))

/-- AND a,b,c: bitwise on all 16 bits (45_alu.md R96). -/
def Obligations.AndIsBitwise : Prop :=
  ∀ a b c : Operand, runsAs [12, a.code, b.code, c.code] (.and a b c) ∧ ∀ s : State,
    sourcesChecked (.and a b c) s b c ∧
    ∀ vb vc, resolve s b = .ok vb → resolve s c = .ok vc →
      writesTo (.and a b c) s a (BitVec.ofNat 16 (vb.toNat &&& vc.toNat))

/-- OR a,b,c: bitwise on all 16 bits (45_alu.md R97). -/
def Obligations.OrIsBitwise : Prop :=
  ∀ a b c : Operand, runsAs [13, a.code, b.code, c.code] (.or a b c) ∧ ∀ s : State,
    sourcesChecked (.or a b c) s b c ∧
    ∀ vb vc, resolve s b = .ok vb → resolve s c = .ok vc →
      writesTo (.or a b c) s a (BitVec.ofNat 16 (vb.toNat ||| vc.toNat))

/-- NOT a,b: `32767 - (vb mod 32768)` (45_alu.md R98). -/
def Obligations.NotIsComplement15 : Prop :=
  ∀ a b : Operand, runsAs [14, a.code, b.code] (.not a b) ∧ ∀ s : State,
    sourceChecked (.not a b) s b ∧
    ∀ vb, resolve s b = .ok vb → writesTo (.not a b) s a (BitVec.ofNat 16 (32767 - vb.toNat % 32768))

/-- RMEM a,x: the whole cell (46_memory_access.md R102). -/
def Obligations.RmemLoadsCell : Prop :=
  ∀ a x : Operand, runsAs [15, a.code, x.code] (.rmem a x) ∧ ∀ s : State,
    sourceChecked (.rmem a x) s x ∧
    ∀ addr, resolve s x = .ok addr → writesTo (.rmem a x) s a (s.mem.readCell addr)

/-- WMEM x,b: the whole cell at `addr`, and no other cell (46_memory_access.md R103). The canonical form that the read of
the stored cell asks for, kept by every step (`InvKeptByStep`), and the numbering of the cell's two bytes are the model's
choice, log entry 1. -/
def Obligations.WmemStoresCell : Prop :=
  ∀ x b : Operand, runsAs [16, x.code, b.code] (.wmem x b) ∧ ∀ s : State,
    sourcesChecked (.wmem x b) s x b ∧
    ∀ addr vb, resolve s x = .ok addr → resolve s b = .ok vb →
      ∃ t, exec (.wmem x b) s = .next t ∧ t = { s with mem := t.mem } ∧
        (s.mem.wf = true → t.mem.readCell addr = vb) ∧
        (∀ a : Word, a ≠ addr → t.mem.readCell a = s.mem.readCell a) ∧
        (∀ k : Nat, k ≠ 2 * addr.toNat → k ≠ 2 * addr.toNat + 1 → t.mem.readByte k = s.mem.readByte k)

/-- CALL x: PcOutOfRange, then StackOverflow, then the push, then MalformedOperand with the return address pushed, then
the jump (47_call.md R106). -/
def Obligations.CallPushesAndJumps : Prop :=
  ∀ x : Operand, runsAs [17, x.code] (.call x) ∧ ∀ s : State,
    (s.pc.val = 65536 → exec (.call x) s = .next (s.raise ⟨.pcOutOfRange, none⟩)) ∧
    (s.pc.val ≠ 65536 → s.stackCapacity = some s.stack.length →
      exec (.call x) s = .next (s.raise ⟨.stackOverflow, none⟩)) ∧
    (s.pc.val ≠ 65536 → s.stackCapacity ≠ some s.stack.length →
      (∀ code, x = .invalid code →
        exec (.call x) s = .next ({ s with stack := BitVec.ofNat 16 s.pc.val :: s.stack }.raise
          ⟨.malformedOperand, some code⟩)) ∧
      ∀ t, resolve s x = .ok t →
        ∃ u, exec (.call x) s = .next u ∧ u.pc.val = t.toNat ∧
          u = { s with stack := BitVec.ofNat 16 s.pc.val :: s.stack, pc := u.pc })

/-- RET: the popped word, raw, is the new `pc` (47_call.md R107). -/
def Obligations.RetPopsPc : Prop :=
  runsAs [18] .ret ∧ ∀ s : State,
    (s.stack = [] → exec .ret s = .next (s.raise ⟨.stackUnderflow, none⟩)) ∧
    ∀ v rest, s.stack = v :: rest →
      ∃ t, exec .ret s = .next t ∧ t.pc.val = v.toNat ∧ t = { s with stack := rest, pc := t.pc }

/-- OUTPUT b: one byte, the value modulo 256 (48_io.md R110). -/
def Obligations.OutputWritesByte : Prop :=
  ∀ b : Operand, runsAs [19, b.code] (.output b) ∧ ∀ s : State,
    sourceChecked (.output b) s b ∧
    ∀ vb, resolve s b = .ok vb →
      exec (.output b) s = .next { s with output := s.output ++ [BitVec.ofNat 8 (vb.toNat % 256)] }

/-- INPUT a: the next byte, zero-extended; on a bad destination the byte is gone from the input (48_io.md R111). What it
does with no byte is `HeldInputWaits`. -/
def Obligations.InputTakesByte : Prop :=
  ∀ a : Operand, runsAs [20, a.code] (.input a) ∧ ∀ (s : State) (ch : Byte) (rest : List Byte),
    s.input = ch :: rest →
      (∀ r, a = .register r →
        exec (.input a) s = .next { s with input := rest, regs := s.regs.set r (BitVec.ofNat 16 ch.toNat) }) ∧
      ((∀ r, a ≠ .register r) →
        exec (.input a) s = .next ({ s with input := rest }.raise ⟨.invalidWriteTarget, some a.code⟩))

/-- An INPUT with no byte available is held: the step leaves the machine at the state before it, so that no number of
steps ends the run; once the console delivers a byte, the same step completes (48_io.md R112). That the held step is a
next state is the model's choice, log entry 8. -/
def Obligations.HeldInputWaits : Prop :=
  ∀ (s : State) (a : Operand) (rest : List Word),
    s.running = true → decode (s.wordsAtPc 4) = .ok (.input a, rest) → s.input = [] →
      step s = .next s ∧ (∀ fuel, runUntilHalted fuel s = none) ∧
      ∀ (ch : Byte) (bs : List Byte) (r : Fin 8), a = .register r →
        ∃ t, step (s.deliver (ch :: bs)) = .next t ∧ t.pc.val = s.pc.val + 2 ∧
          t = { s with pc := t.pc, input := bs, regs := s.regs.set r (BitVec.ofNat 16 ch.toNat) }

/-! ### What the instructions leave unchanged -/

/-- Memory changes only by WMEM, and by WMEM only in the cell it stores to (10_state.md R19; 20_memory.md R38). The numbering of a cell's two bytes is the model's choice, log
entry 1. -/
def Obligations.MemoryChangesOnlyByWmem : Prop :=
  ∀ (i : Instr) (s t : State), exec i s = .next t →
    ((∀ x b, i ≠ .wmem x b) → ∀ k : Nat, t.mem.readByte k = s.mem.readByte k) ∧
    (∀ x b, i = .wmem x b → ∀ addr, resolve s x = .ok addr →
      ∀ k : Nat, k ≠ 2 * addr.toNat → k ≠ 2 * addr.toNat + 1 → t.mem.readByte k = s.mem.readByte k)

/-- The stack changes only by PUSH and CALL, which add one word on top, and POP and RET, which take the top
(10_state.md R20). -/
def Obligations.StackChangesOnlyByStackInstrs : Prop :=
  ∀ (i : Instr) (s t : State), exec i s = .next t → t.stack ≠ s.stack →
    (((∃ b, i = .push b) ∨ (∃ x, i = .call x)) ∧ ∃ v, t.stack = v :: s.stack) ∨
    (((∃ a, i = .pop a) ∨ i = .ret) ∧ ∃ v, s.stack = v :: t.stack)

/-- A register changes only as the destination of an instruction that has one (10_state.md R15). -/
def Obligations.RegistersChangeOnlyAsDestination : Prop :=
  ∀ (i : Instr) (s t : State) (r : Fin 8), exec i s = .next t → t.regs[r] ≠ s.regs[r] →
    destination i = some (.register r)

/-- The output stream changes only by OUTPUT, which appends one byte; the input stream only by INPUT, which takes its
first byte (10_state.md R27). -/
def Obligations.ConsoleChangesOnlyByConsoleInstrs : Prop :=
  ∀ (i : Instr) (s t : State), exec i s = .next t →
    (t.output ≠ s.output → (∃ b, i = .output b) ∧ ∃ ch, t.output = s.output ++ [ch]) ∧
    (t.input ≠ s.input → (∃ a, i = .input a) ∧ ∃ ch, s.input = ch :: t.input)

/-- Where the counter differs after an instruction from where the fetch phase put it, the instruction is a redirect
(10_state.md R17; 40_step_and_resolver.md R75), or an INPUT with no byte available. The second case is the model's choice,
log entry 8. -/
def Obligations.PcMovesOnlyByRedirects : Prop :=
  ∀ (i : Instr) (s t : State), exec i s = .next t → t.pc ≠ s.pc →
    (∃ x, i = .jmp x) ∨ (∃ b x, i = .jt b x) ∨ (∃ b x, i = .jf b x) ∨ (∃ x, i = .call x) ∨ i = .ret ∨
    ((∃ a, i = .input a) ∧ s.input = [])

/-- The running flag is cleared only by HALT, which latches nothing, or by a fault, which raises no notice and leaves
the counter where the fetch phase put it (10_state.md R22; 60_exceptions.md R126; 70_reset_and_hazards.md R139). -/
def Obligations.RunEndsOnlyByHaltOrFault : Prop :=
  ∀ (i : Instr) (s t : State), exec i s = .next t → s.running = true → t.running = false →
    (i = .halt ∧ t.haltNotice = true ∧ t.fault = s.fault) ∨
    (i ≠ .halt ∧ t.haltNotice = s.haltNotice ∧ t.fault ≠ none ∧ t.pc = s.pc)

/-- Of a faulting instruction only what stands above the raise has taken effect: nothing, but for a POP that has
popped, an INPUT that has taken a byte, and a CALL that has pushed (60_exceptions.md R124). -/
def Obligations.FaultsArePrecise : Prop :=
  ∀ (i : Instr) (s t : State), s.running = true → exec i s = .next t → t.running = false → i ≠ .halt →
    ∃ trap : Trap,
      t = s.raise trap ∨
      ((∃ a, i = .pop a) ∧ ∃ v rest, s.stack = v :: rest ∧ t = { s with stack := rest }.raise trap) ∨
      ((∃ a, i = .input a) ∧ ∃ ch rest, s.input = ch :: rest ∧ t = { s with input := rest }.raise trap) ∨
      ((∃ x, i = .call x) ∧ t = { s with stack := BitVec.ofNat 16 s.pc.val :: s.stack }.raise trap)

/-! ### Laws of the instructions -/

/-- PUSH b, then POP into a register, from any state in which neither faults: the register holds the value pushed, the
stack is as before, and `pc` has moved on by 4 (42_move_stack.md R83). -/
def Obligations.PushThenPopReproduces : Prop :=
  ∀ (s : State) (b : Operand) (vb : Word) (r : Fin 8), s.running = true → b.wellFormed = true →
    codeAt s [2, b.code, 3, (Operand.register r).code] → resolve s b = .ok vb →
    s.stackCapacity ≠ some s.stack.length →
    ∃ t u, step s = .next t ∧ step t = .next u ∧ u.pc.val = s.pc.val + 4 ∧
      u = { s with pc := u.pc, regs := s.regs.set r vb }

/-- CALL at `p` goes to its target with `p + 2` pushed; a RET of any running state with that stack then goes to `p + 2`
with the stack as before the CALL (47_call.md R108). -/
def Obligations.CallThenRetReturns : Prop :=
  ∀ (s : State) (x : Operand) (tgt : Word), s.running = true → x.wellFormed = true → codeAt s [17, x.code] →
    resolve s x = .ok tgt → s.pc.val + 2 ≠ 65536 → s.stackCapacity ≠ some s.stack.length →
    ∃ t, step s = .next t ∧ t.pc.val = tgt.toNat ∧
      ∀ u : State, u.running = true → u.stack = t.stack → codeAt u [18] →
        ∃ w, step u = .next w ∧ w.pc.val = s.pc.val + 2 ∧ w.stack = s.stack

/-- What ADD, MULT, NOT, EQ, GT and INPUT leave in a register they change is at most 32767, whatever the sources hold
(45_alu.md R99; 10_state.md R15). -/
def Obligations.ResultsFitFifteenBits : Prop :=
  ∀ (i : Instr) (s t : State) (r : Fin 8), exec i s = .next t → t.regs[r] ≠ s.regs[r] →
    ((∃ a b c, i = .add a b c) ∨ (∃ a b c, i = .mult a b c) ∨ (∃ a b, i = .not a b) ∨ (∃ a b c, i = .eq a b c) ∨
      (∃ a b c, i = .gt a b c) ∨ (∃ a, i = .input a)) →
    t.regs[r].toNat ≤ 32767

/-- NOT twice: `v` for `v` up to 32767, `v - 32768` above (45_alu.md R100). -/
def Obligations.NotTwice : Prop :=
  ∀ (s : State) (r : Fin 8),
    ∃ t u, exec (.not (.register r) (.register r)) s = .next t ∧
      exec (.not (.register r) (.register r)) t = .next u ∧
      (s.regs[r].toNat ≤ 32767 → u.regs[r] = s.regs[r]) ∧
      (32768 ≤ s.regs[r].toNat → u.regs[r].toNat = s.regs[r].toNat - 32768)

/-! ### The whole machine -/

/-- Every step keeps the invariant: memory canonical, the stack within its capacity, the status outputs in one of the
cases a run can be in (10_state.md R21 to R23; 70_reset_and_hazards.md R139). The canonical form of memory, the capacity as
a field and the info beside the latch are the model's choice, log entries 1, 5 and 9. -/
def Obligations.InvKeptByStep : Prop :=
  ∀ s t : State, s.inv → step s = .next t → t.inv

/-- The invariant holds at reset, which is the launch that the model chooses, log entries 2, 4 and 5. -/
def Obligations.InvAtReset : Prop := State.reset.inv

/-- A launch that is not refused leaves every piece of state at its reset value, and the invariant holds (10_state.md
R29; 70_reset_and_hazards.md R133 to R136). The invariant's canonical form of memory and its info beside the latch, and the
input and the capacity as fields, are the model's choice, log entries 1, 4, 5 and 9. -/
def Obligations.LaunchGivesResetState : Prop :=
  ∀ (image : List Byte) (start : Word) (input : List Byte) (capacity : Option Nat),
    image.length % 2 = 0 → image.length ≤ 131072 →
    ∃ s, launch image start input capacity = .ok s ∧ s.inv ∧
      (∀ i : Nat, 2 * i + 1 < image.length →
        (s.mem.readCell (BitVec.ofNat 16 i)).toNat = (image.getD (2 * i) 0).toNat + 256 * (image.getD (2 * i + 1) 0).toNat) ∧
      (∀ a : Word, image.length ≤ 2 * a.toNat → s.mem.readCell a = 0) ∧
      (∀ r : Fin 8, s.regs[r] = 0) ∧ s.stack = [] ∧ s.pc.val = start.toNat ∧ s.running = true ∧ s.fault = none ∧
      s.output = [] ∧ s.input = input ∧ s.haltNotice = false ∧ s.stackCapacity = capacity

/-- An image of odd length or of more than 65536 words is refused: there is no run (70_reset_and_hazards.md R137). -/
def Obligations.LaunchRefusesBadImages : Prop :=
  ∀ (image : List Byte) (start : Word) (input : List Byte) (capacity : Option Nat),
    image.length % 2 = 1 ∨ 131072 < image.length → ∃ why, launch image start input capacity = .error why

/-- `run` returns only when Halted, with the machine final or stopped and no step left; more fuel changes nothing
(80_interfaces.md R148; 70_reset_and_hazards.md R139, R140). The fuel, and the host's outcome of a Halted machine, are the
model's choice, log entries 7 and 16. -/
def Obligations.RunReturnsOnlyWhenHalted : Prop :=
  ∀ (fuel : Nat) (s t : State), s.inv → runUntilHalted fuel s = some t →
    (t.final ∨ t.stopped) ∧ step t = .fault .halted ∧ ∀ more, runUntilHalted (fuel + more) s = some t

/-- When a byte arrives does not matter to a machine that is not held: bytes delivered before a step or after it leave
the same state (48_io.md R112, R113; 80_interfaces.md R152, R153). The input stream as a list of delivered bytes is the
model's choice, log entry 4. -/
def Obligations.DeliveryCommutesWithStep : Prop :=
  ∀ (s t : State) (bs : List Byte), step s = .next t → ¬ s.held →
    step (s.deliver bs) = .next (t.deliver bs)

/-- A machine runs the same whatever it has written before: the output stream is written and never read (10_state.md
R27; 80_interfaces.md R151). -/
def Obligations.OutputIsNeverRead : Prop :=
  ∀ (s t : State) (earlier : List Byte), step s = .next t →
    step { s with output := earlier ++ s.output } = .next { t with output := earlier ++ t.output }
end

