-- ==== Sys2Proof/Laws/Decode.lean ====
section
/-! SUPPORT. The decoder does the same whatever it takes its words from: one simulation between two sources of words
(30_encoding.md R47, R54). -/

namespace Sys2Proof

variable {σ τ ε δ : Type} {next : σ → Except ε (Word × σ)} {next' : τ → Except δ (Word × τ)} {R : σ → τ → Prop}

/-- The second source follows the first: whatever word the first gives, the second gives too. -/
def Follows (next : σ → Except ε (Word × σ)) (next' : τ → Except δ (Word × τ)) (R : σ → τ → Prop) : Prop :=
  ∀ x y w x', R x y → next x = .ok (w, x') → ∃ y', next' y = .ok (w, y') ∧ R x' y'

theorem operands1_follows (hf : Follows next next' R) {mk : Word → Instr} {x x' : σ} {y : τ} {i : Instr}
    (hR : R x y) (h : operands1 next mk x = .ok (i, x')) : ∃ y', operands1 next' mk y = .ok (i, y') ∧ R x' y' := by
  unfold operands1 at h ⊢
  cases hn : next x with
  | error e => simp [hn] at h
  | ok p =>
    obtain ⟨w, x₁⟩ := p
    obtain ⟨y₁, hy, hR₁⟩ := hf _ _ _ _ hR hn
    simp only [hn, Except.ok.injEq, Prod.mk.injEq] at h
    obtain ⟨rfl, rfl⟩ := h
    exact ⟨y₁, by simp [hy], hR₁⟩

theorem operands2_follows (hf : Follows next next' R) {mk : Word → Word → Instr} {x x' : σ} {y : τ} {i : Instr}
    (hR : R x y) (h : operands2 next mk x = .ok (i, x')) : ∃ y', operands2 next' mk y = .ok (i, y') ∧ R x' y' := by
  unfold operands2 at h ⊢
  cases hn : next x with
  | error e => simp [hn] at h
  | ok p =>
    obtain ⟨w, x₁⟩ := p
    obtain ⟨y₁, hy, hR₁⟩ := hf _ _ _ _ hR hn
    simp only [hn] at h
    simp only [hy]
    exact operands1_follows hf hR₁ h

theorem operands3_follows (hf : Follows next next' R) {mk : Word → Word → Word → Instr} {x x' : σ} {y : τ}
    {i : Instr} (hR : R x y) (h : operands3 next mk x = .ok (i, x')) :
    ∃ y', operands3 next' mk y = .ok (i, y') ∧ R x' y' := by
  unfold operands3 at h ⊢
  cases hn : next x with
  | error e => simp [hn] at h
  | ok p =>
    obtain ⟨w, x₁⟩ := p
    obtain ⟨y₁, hy, hR₁⟩ := hf _ _ _ _ hR hn
    simp only [hn] at h
    simp only [hy]
    exact operands2_follows hf hR₁ h

/-- If the first source holds an instruction, the second one holds the same. -/
theorem decodeFrom_follows (hf : Follows next next' R) (bad : Word → σ → ε) (bad' : Word → τ → δ) {x x' : σ} {y : τ}
    {i : Instr} (hR : R x y) (h : decodeFrom next bad x = .ok (i, x')) :
    ∃ y', decodeFrom next' bad' y = .ok (i, y') ∧ R x' y' := by
  unfold decodeFrom at h ⊢
  cases hn : next x with
  | error e => simp [hn] at h
  | ok p =>
    obtain ⟨w, x₁⟩ := p
    obtain ⟨y₁, hy, hR₁⟩ := hf _ _ _ _ hR hn
    simp only [hn] at h
    simp only [hy]
    split at h <;>
      first
        | exact operands1_follows hf hR₁ h
        | exact operands2_follows hf hR₁ h
        | exact operands3_follows hf hR₁ h
        | (simp only [Except.ok.injEq, Prod.mk.injEq] at h; obtain ⟨rfl, rfl⟩ := h; exact ⟨y₁, rfl, hR₁⟩)
        | simp at h

/-- An operand word is one of the three classes' readings (30_encoding.md R49). -/
theorem Operand.ofWord_cases (w : Word) :
    (w.toNat ≤ 32767 ∧ Operand.ofWord w = .literal (w.setWidth 15)) ∨
    (32768 ≤ w.toNat ∧ w.toNat ≤ 32775 ∧ Operand.ofWord w = .register (Fin.ofNat 8 (w.toNat - 32768))) ∨
    (32776 ≤ w.toNat ∧ Operand.ofWord w = .invalid w) := by
  unfold Operand.ofWord classify
  simp only [Config.litMax, Config.regLast, Config.regBase]
  by_cases h : w.toNat ≤ 32767
  · exact .inl ⟨h, by rw [if_pos h]⟩
  · by_cases h' : w.toNat ≤ 32775
    · exact .inr (.inl ⟨by omega, h', by rw [if_neg h, if_pos h']⟩)
    · exact .inr (.inr ⟨by omega, by rw [if_neg h, if_neg h']⟩)

end Sys2Proof
end

