-- ==== Sys2Proof/Laws/Operands.lean ====
section
/-! SUPPORT. All that reading a source and writing a destination can answer (40_step_and_resolver.md R68, R69, R72). -/

namespace Sys2Proof.Machine

/-- A source has a value, or it is Invalid and MalformedOperand carries its code. -/
theorem resolve_cases (s : State) (o : Operand) :
    (∃ v, resolve s o = .ok v) ∨
    (∃ code, o = .invalid code ∧ resolve s o = .error ⟨.malformedOperand, some code⟩) := by
  cases o with
  | literal v => exact .inl ⟨_, rfl⟩
  | register r => exact .inl ⟨_, rfl⟩
  | invalid code => exact .inr ⟨code, rfl, rfl⟩

/-- A source's value depends on the registers alone. -/
theorem resolve_congr {s t : State} (h : s.regs = t.regs) (o : Operand) : resolve s o = resolve t o := by
  cases o <;> simp [resolve, State.readReg, h]

/-- With the value known, an instruction goes on. -/
theorem withValue_ok {s : State} {o : Operand} {v : Word} (h : resolve s o = .ok v) (k : Word → Result) :
    withValue s o k = k v := by
  simp [withValue, h]

/-- An Invalid source ends the instruction. -/
theorem withValue_invalid (s : State) (code : Word) (k : Word → Result) :
    withValue s (.invalid code) k = raised s ⟨.malformedOperand, some code⟩ := rfl

/-- All that an instruction's first source can do. -/
theorem withValue_cases (s : State) (o : Operand) (k : Word → Result) :
    (∃ v, resolve s o = .ok v ∧ withValue s o k = k v) ∨
    (∃ code, o = .invalid code ∧ withValue s o k = raised s ⟨.malformedOperand, some code⟩) := by
  obtain ⟨v, h⟩ | ⟨code, rfl, -⟩ := resolve_cases s o
  · exact .inl ⟨v, h, withValue_ok h k⟩
  · exact .inr ⟨code, rfl, rfl⟩

/-- With both values known, an instruction goes on. -/
theorem withValues_ok {s : State} {o p : Operand} {v w : Word} (h : resolve s o = .ok v) (h' : resolve s p = .ok w)
    (k : Word → Word → Result) : withValues s o p k = k v w := by
  rw [withValues, withValue_ok h, withValue_ok h']

/-- All that two sources can do, the first one first. -/
theorem withValues_cases (s : State) (o p : Operand) (k : Word → Word → Result) :
    (∃ v w, resolve s o = .ok v ∧ resolve s p = .ok w ∧ withValues s o p k = k v w) ∨
    (∃ code, withValues s o p k = raised s ⟨.malformedOperand, some code⟩) := by
  obtain ⟨v, h, e⟩ | ⟨code, -, e⟩ := withValue_cases s o fun v => withValue s p fun w => k v w
  · obtain ⟨w, h', e'⟩ | ⟨code, -, e'⟩ := withValue_cases s p fun w => k v w
    · exact .inl ⟨v, w, h, h', e.trans e'⟩
    · exact .inr ⟨code, e.trans e'⟩
  · exact .inr ⟨code, e⟩

/-- All that a write to a destination can do. -/
theorem writeDest_cases (s : State) (a : Operand) (v : Word) :
    (∃ r, a = .register r ∧ writeDest s a v = .next (s.writeReg r v)) ∨
    ((∀ r, a ≠ .register r) ∧ writeDest s a v = raised s ⟨.invalidWriteTarget, some a.code⟩) := by
  cases a with
  | literal n => exact .inr ⟨fun _ h => Operand.noConfusion h, rfl⟩
  | register r => exact .inl ⟨r, rfl, rfl⟩
  | invalid code => exact .inr ⟨fun _ h => Operand.noConfusion h, rfl⟩

end Sys2Proof.Machine
end

