-- ==== Sys2Proof/Laws/State.lean ====
section
/-! SUPPORT. One lemma per field per update of the state, so that no proof unfolds a record update; and what each
operation that can fail can answer. -/

namespace Sys2Proof.Machine

variable (s : State)

/-! ### writeReg -/

@[simp] theorem State.writeReg_mem (r : Fin 8) (v : Word) : (s.writeReg r v).mem = s.mem := rfl
@[simp] theorem State.writeReg_regs (r : Fin 8) (v : Word) : (s.writeReg r v).regs = s.regs.set r v := rfl
@[simp] theorem State.writeReg_stack (r : Fin 8) (v : Word) : (s.writeReg r v).stack = s.stack := rfl
@[simp] theorem State.writeReg_pc (r : Fin 8) (v : Word) : (s.writeReg r v).pc = s.pc := rfl
@[simp] theorem State.writeReg_running (r : Fin 8) (v : Word) : (s.writeReg r v).running = s.running := rfl
@[simp] theorem State.writeReg_fault (r : Fin 8) (v : Word) : (s.writeReg r v).fault = s.fault := rfl
@[simp] theorem State.writeReg_faultInfo (r : Fin 8) (v : Word) : (s.writeReg r v).faultInfo = s.faultInfo := rfl
@[simp] theorem State.writeReg_haltNotice (r : Fin 8) (v : Word) : (s.writeReg r v).haltNotice = s.haltNotice := rfl
@[simp] theorem State.writeReg_output (r : Fin 8) (v : Word) : (s.writeReg r v).output = s.output := rfl
@[simp] theorem State.writeReg_input (r : Fin 8) (v : Word) : (s.writeReg r v).input = s.input := rfl
@[simp] theorem State.writeReg_stackCapacity (r : Fin 8) (v : Word) : (s.writeReg r v).stackCapacity = s.stackCapacity := rfl

/-! ### setPc -/

@[simp] theorem State.setPc_mem (t : Word) : (s.setPc t).mem = s.mem := rfl
@[simp] theorem State.setPc_regs (t : Word) : (s.setPc t).regs = s.regs := rfl
@[simp] theorem State.setPc_stack (t : Word) : (s.setPc t).stack = s.stack := rfl
@[simp] theorem State.setPc_pc (t : Word) : (s.setPc t).pc = ⟨t.toNat, Nat.lt_trans t.isLt (by decide)⟩ := rfl
@[simp] theorem State.setPc_running (t : Word) : (s.setPc t).running = s.running := rfl
@[simp] theorem State.setPc_fault (t : Word) : (s.setPc t).fault = s.fault := rfl
@[simp] theorem State.setPc_faultInfo (t : Word) : (s.setPc t).faultInfo = s.faultInfo := rfl
@[simp] theorem State.setPc_haltNotice (t : Word) : (s.setPc t).haltNotice = s.haltNotice := rfl
@[simp] theorem State.setPc_output (t : Word) : (s.setPc t).output = s.output := rfl
@[simp] theorem State.setPc_input (t : Word) : (s.setPc t).input = s.input := rfl
@[simp] theorem State.setPc_stackCapacity (t : Word) : (s.setPc t).stackCapacity = s.stackCapacity := rfl

/-! ### advance -/

@[simp] theorem State.advance_mem (n : Nat) : (s.advance n).mem = s.mem := rfl
@[simp] theorem State.advance_regs (n : Nat) : (s.advance n).regs = s.regs := rfl
@[simp] theorem State.advance_stack (n : Nat) : (s.advance n).stack = s.stack := rfl
@[simp] theorem State.advance_pc (n : Nat) : (s.advance n).pc = ⟨min (s.pc.val + n) 65536, by omega⟩ := rfl
@[simp] theorem State.advance_running (n : Nat) : (s.advance n).running = s.running := rfl
@[simp] theorem State.advance_fault (n : Nat) : (s.advance n).fault = s.fault := rfl
@[simp] theorem State.advance_faultInfo (n : Nat) : (s.advance n).faultInfo = s.faultInfo := rfl
@[simp] theorem State.advance_haltNotice (n : Nat) : (s.advance n).haltNotice = s.haltNotice := rfl
@[simp] theorem State.advance_output (n : Nat) : (s.advance n).output = s.output := rfl
@[simp] theorem State.advance_input (n : Nat) : (s.advance n).input = s.input := rfl
@[simp] theorem State.advance_stackCapacity (n : Nat) : (s.advance n).stackCapacity = s.stackCapacity := rfl

/-! ### retreat -/

@[simp] theorem State.retreat_mem (n : Nat) : (s.retreat n).mem = s.mem := rfl
@[simp] theorem State.retreat_regs (n : Nat) : (s.retreat n).regs = s.regs := rfl
@[simp] theorem State.retreat_stack (n : Nat) : (s.retreat n).stack = s.stack := rfl
@[simp] theorem State.retreat_pc (n : Nat) : (s.retreat n).pc = ⟨s.pc.val - n, by omega⟩ := rfl
@[simp] theorem State.retreat_running (n : Nat) : (s.retreat n).running = s.running := rfl
@[simp] theorem State.retreat_fault (n : Nat) : (s.retreat n).fault = s.fault := rfl
@[simp] theorem State.retreat_faultInfo (n : Nat) : (s.retreat n).faultInfo = s.faultInfo := rfl
@[simp] theorem State.retreat_haltNotice (n : Nat) : (s.retreat n).haltNotice = s.haltNotice := rfl
@[simp] theorem State.retreat_output (n : Nat) : (s.retreat n).output = s.output := rfl
@[simp] theorem State.retreat_input (n : Nat) : (s.retreat n).input = s.input := rfl
@[simp] theorem State.retreat_stackCapacity (n : Nat) : (s.retreat n).stackCapacity = s.stackCapacity := rfl

/-! ### consoleWrite -/

@[simp] theorem State.consoleWrite_mem (b : Byte) : (s.consoleWrite b).mem = s.mem := rfl
@[simp] theorem State.consoleWrite_regs (b : Byte) : (s.consoleWrite b).regs = s.regs := rfl
@[simp] theorem State.consoleWrite_stack (b : Byte) : (s.consoleWrite b).stack = s.stack := rfl
@[simp] theorem State.consoleWrite_pc (b : Byte) : (s.consoleWrite b).pc = s.pc := rfl
@[simp] theorem State.consoleWrite_running (b : Byte) : (s.consoleWrite b).running = s.running := rfl
@[simp] theorem State.consoleWrite_fault (b : Byte) : (s.consoleWrite b).fault = s.fault := rfl
@[simp] theorem State.consoleWrite_faultInfo (b : Byte) : (s.consoleWrite b).faultInfo = s.faultInfo := rfl
@[simp] theorem State.consoleWrite_haltNotice (b : Byte) : (s.consoleWrite b).haltNotice = s.haltNotice := rfl
@[simp] theorem State.consoleWrite_output (b : Byte) : (s.consoleWrite b).output = s.output ++ [b] := rfl
@[simp] theorem State.consoleWrite_input (b : Byte) : (s.consoleWrite b).input = s.input := rfl
@[simp] theorem State.consoleWrite_stackCapacity (b : Byte) : (s.consoleWrite b).stackCapacity = s.stackCapacity := rfl

/-! ### deliver -/

@[simp] theorem State.deliver_mem (bs : List Byte) : (s.deliver bs).mem = s.mem := rfl
@[simp] theorem State.deliver_regs (bs : List Byte) : (s.deliver bs).regs = s.regs := rfl
@[simp] theorem State.deliver_stack (bs : List Byte) : (s.deliver bs).stack = s.stack := rfl
@[simp] theorem State.deliver_pc (bs : List Byte) : (s.deliver bs).pc = s.pc := rfl
@[simp] theorem State.deliver_running (bs : List Byte) : (s.deliver bs).running = s.running := rfl
@[simp] theorem State.deliver_fault (bs : List Byte) : (s.deliver bs).fault = s.fault := rfl
@[simp] theorem State.deliver_faultInfo (bs : List Byte) : (s.deliver bs).faultInfo = s.faultInfo := rfl
@[simp] theorem State.deliver_haltNotice (bs : List Byte) : (s.deliver bs).haltNotice = s.haltNotice := rfl
@[simp] theorem State.deliver_output (bs : List Byte) : (s.deliver bs).output = s.output := rfl
@[simp] theorem State.deliver_input (bs : List Byte) : (s.deliver bs).input = s.input ++ bs := rfl
@[simp] theorem State.deliver_stackCapacity (bs : List Byte) : (s.deliver bs).stackCapacity = s.stackCapacity := rfl

/-! ### halt -/

@[simp] theorem State.halt_mem : (s.halt).mem = s.mem := rfl
@[simp] theorem State.halt_regs : (s.halt).regs = s.regs := rfl
@[simp] theorem State.halt_stack : (s.halt).stack = s.stack := rfl
@[simp] theorem State.halt_pc : (s.halt).pc = s.pc := rfl
@[simp] theorem State.halt_running : (s.halt).running = false := rfl
@[simp] theorem State.halt_fault : (s.halt).fault = s.fault := rfl
@[simp] theorem State.halt_faultInfo : (s.halt).faultInfo = s.faultInfo := rfl
@[simp] theorem State.halt_haltNotice : (s.halt).haltNotice = true := rfl
@[simp] theorem State.halt_output : (s.halt).output = s.output := rfl
@[simp] theorem State.halt_input : (s.halt).input = s.input := rfl
@[simp] theorem State.halt_stackCapacity : (s.halt).stackCapacity = s.stackCapacity := rfl

/-! ### raise -/

@[simp] theorem State.raise_mem (t : Trap) : (s.raise t).mem = s.mem := by unfold State.raise; split <;> rfl
@[simp] theorem State.raise_regs (t : Trap) : (s.raise t).regs = s.regs := by unfold State.raise; split <;> rfl
@[simp] theorem State.raise_stack (t : Trap) : (s.raise t).stack = s.stack := by unfold State.raise; split <;> rfl
@[simp] theorem State.raise_pc (t : Trap) : (s.raise t).pc = s.pc := by unfold State.raise; split <;> rfl
@[simp] theorem State.raise_running (t : Trap) : (s.raise t).running = false := by unfold State.raise; split <;> rfl
@[simp] theorem State.raise_haltNotice (t : Trap) : (s.raise t).haltNotice = s.haltNotice := by unfold State.raise; split <;> rfl
@[simp] theorem State.raise_output (t : Trap) : (s.raise t).output = s.output := by unfold State.raise; split <;> rfl
@[simp] theorem State.raise_input (t : Trap) : (s.raise t).input = s.input := by unfold State.raise; split <;> rfl
@[simp] theorem State.raise_stackCapacity (t : Trap) : (s.raise t).stackCapacity = s.stackCapacity := by unfold State.raise; split <;> rfl

/-- The latch after a raise (60_exceptions.md R115): the first kind stays. -/
@[simp] theorem State.raise_fault (t : Trap) : (s.raise t).fault = some (s.fault.getD t.kind) := by
  unfold State.raise
  split <;> simp [*]

/-- After a raise the latch holds something. -/
theorem State.raise_fault_ne_none (t : Trap) : (s.raise t).fault ≠ none := by simp

/-- With nothing latched before, a raise is one record update. -/
theorem State.raise_of_clear {s : State} (h : s.fault = none) (t : Trap) :
    s.raise t = { s with fault := some t.kind, faultInfo := t.info, running := false } := by
  unfold State.raise
  simp [h]

/-! ### push, pop, consoleRead -/

/-- All that a push can answer (40_step_and_resolver.md R70). -/
theorem State.push_cases (v : Word) :
    (s.stackCapacity = some s.stack.length ∧ s.push v = .error ⟨.stackOverflow, none⟩) ∨
    (s.stackCapacity ≠ some s.stack.length ∧ s.push v = .ok { s with stack := v :: s.stack }) := by
  unfold State.push
  by_cases h : s.stackCapacity = some s.stack.length <;> simp [h]

/-- All that a pop can answer (R71). -/
theorem State.pop_cases :
    (s.stack = [] ∧ s.pop = .error ⟨.stackUnderflow, none⟩) ∨
    (∃ v rest, s.stack = v :: rest ∧ s.pop = .ok (v, { s with stack := rest })) := by
  unfold State.pop
  cases h : s.stack <;> simp

/-- All that a read of the console can answer (80_interfaces.md R152). -/
theorem State.consoleRead_cases :
    (s.input = [] ∧ s.consoleRead = none) ∨
    (∃ b rest, s.input = b :: rest ∧ s.consoleRead = some (b, { s with input := rest })) := by
  unfold State.consoleRead
  cases h : s.input <;> simp

/-! ### registers -/

/-- The register written reads as the value written. -/
theorem State.readReg_writeReg_same (r : Fin 8) (v : Word) : (s.writeReg r v).readReg r = v := by
  simp [State.readReg, State.writeReg]

/-- Every other register reads as before. -/
theorem State.readReg_writeReg_other {r q : Fin 8} (v : Word) (h : q ≠ r) :
    (s.writeReg r v).readReg q = s.readReg q := by
  have hne : r.val ≠ q.val := fun e => h (Fin.ext e.symm)
  simp [State.readReg, State.writeReg, hne]

end Sys2Proof.Machine
end

