-- ==== Sys2Proof/Laws/Exec.lean ====
section
/-! SUPPORT. Said once: everything an instruction can do to the state, in sixteen cases. Proofs about all instructions
take `exec_effect` apart instead of unfolding `exec`. -/

namespace Sys2Proof.Machine

/-- The effects an instruction can have, by what the instruction is. -/
inductive Effect : Instr → State → State → Prop where
  /-- Nothing: NOOP, a jump not taken. -/
  | quiet {i s} (hi : i = .noop ∨ (∃ b x, i = .jt b x) ∨ (∃ b x, i = .jf b x)) : Effect i s s
  | halt {s} : Effect .halt s s.halt
  /-- A fault with nothing done before it. -/
  | fault {i s} (trap : Trap) (hi : i ≠ .halt ∧ i ≠ .noop ∧ ∀ x, i ≠ .jmp x) : Effect i s (s.raise trap)
  /-- A value to the destination, from sources or memory. -/
  | write {i s} (r : Fin 8) (v : Word) (hd : destination i = some (.register r)) (hp : ∀ a, i ≠ .pop a)
      (hn : ∀ a, i ≠ .input a)
      (hv : ((∃ a b c, i = .add a b c) ∨ (∃ a b c, i = .mult a b c) ∨ (∃ a b, i = .not a b) ∨
        (∃ a b c, i = .eq a b c) ∨ (∃ a b c, i = .gt a b c)) → v.toNat ≤ 32767) : Effect i s (s.writeReg r v)
  | push {b s} (v : Word) (hc : s.stackCapacity ≠ some s.stack.length) :
      Effect (.push b) s { s with stack := v :: s.stack }
  | popWrite {s} (r : Fin 8) (v : Word) (rest : List Word) (hs : s.stack = v :: rest) :
      Effect (.pop (.register r)) s ({ s with stack := rest }.writeReg r v)
  | popFault {a s} (v : Word) (rest : List Word) (trap : Trap) (hs : s.stack = v :: rest) :
      Effect (.pop a) s ({ s with stack := rest }.raise trap)
  | jump {i s} (w : Word) (hi : (∃ x, i = .jmp x) ∨ (∃ b x, i = .jt b x) ∨ (∃ b x, i = .jf b x)) :
      Effect i s (s.setPc w)
  | store {x b s} (addr v : Word) (hx : resolve s x = .ok addr) (hb : resolve s b = .ok v) :
      Effect (.wmem x b) s { s with mem := s.mem.writeCell addr v }
  | call {x s} (w : Word) (hc : s.stackCapacity ≠ some s.stack.length) :
      Effect (.call x) s ({ s with stack := s.pcWord :: s.stack }.setPc w)
  | callFault {x s} (trap : Trap) (hc : s.stackCapacity ≠ some s.stack.length) :
      Effect (.call x) s ({ s with stack := s.pcWord :: s.stack }.raise trap)
  | ret {s} (v : Word) (rest : List Word) (hs : s.stack = v :: rest) :
      Effect .ret s ({ s with stack := rest }.setPc v)
  | output {b s} (ch : Byte) : Effect (.output b) s (s.consoleWrite ch)
  | inputHeld {a s} (hs : s.input = []) : Effect (.input a) s (s.retreat 2)
  | inputWrite {s} (r : Fin 8) (ch : Byte) (rest : List Byte) (hs : s.input = ch :: rest) :
      Effect (.input (.register r)) s ({ s with input := rest }.writeReg r (ch.setWidth 16))
  | inputFault {a s} (ch : Byte) (rest : List Byte) (trap : Trap) (hs : s.input = ch :: rest) :
      Effect (.input a) s ({ s with input := rest }.raise trap)

/-- An answer that is a next state with an effect of `i`. -/
def Answers (i : Instr) (s : State) (r : Result) : Prop := ∃ t, r = .next t ∧ Effect i s t

variable {i : Instr} {s : State}

theorem answers_raised (trap : Trap) (hi : i ≠ .halt ∧ i ≠ .noop ∧ ∀ x, i ≠ .jmp x) : Answers i s (raised s trap) :=
  ⟨_, rfl, .fault trap hi⟩

theorem answers_withValue {o : Operand} {k : Word → Result} (hi : i ≠ .halt ∧ i ≠ .noop ∧ ∀ x, i ≠ .jmp x)
    (h : ∀ v, resolve s o = .ok v → Answers i s (k v)) : Answers i s (withValue s o k) := by
  obtain ⟨v, hv, e⟩ | ⟨code, -, e⟩ := withValue_cases s o k <;> rw [e]
  · exact h v hv
  · exact answers_raised _ hi

theorem answers_withValues {o p : Operand} {k : Word → Word → Result} (hi : i ≠ .halt ∧ i ≠ .noop ∧ ∀ x, i ≠ .jmp x)
    (h : ∀ v w, resolve s o = .ok v → resolve s p = .ok w → Answers i s (k v w)) : Answers i s (withValues s o p k) :=
  answers_withValue hi fun v hv => answers_withValue hi fun w hw => h v w hv hw

theorem answers_writeDest {a : Operand} {v : Word} (hi : i ≠ .halt ∧ i ≠ .noop ∧ ∀ x, i ≠ .jmp x)
    (hd : destination i = some a) (hp : ∀ a, i ≠ .pop a) (hn : ∀ a, i ≠ .input a)
    (hv : ((∃ a b c, i = .add a b c) ∨ (∃ a b c, i = .mult a b c) ∨ (∃ a b, i = .not a b) ∨
      (∃ a b c, i = .eq a b c) ∨ (∃ a b c, i = .gt a b c)) → v.toNat ≤ 32767) : Answers i s (writeDest s a v) := by
  obtain ⟨r, rfl, e⟩ | ⟨-, e⟩ := writeDest_cases s a v <;> rw [e]
  · exact ⟨_, rfl, .write r v hd hp hn hv⟩
  · exact answers_raised _ hi

/-- The ALU's results of ADD and MULT lie below 32768 (45_alu.md R99). -/
theorem toNat_mod_le (n : Nat) : (BitVec.ofNat 16 (n % Config.arithModulus)).toNat ≤ 32767 := by
  simp only [BitVec.toNat_ofNat, Config.arithModulus]
  omega

/-- The ALU's result of NOT lies below 32768 (R98). -/
theorem aluNot_le (v : Word) : (aluNot v).toNat ≤ 32767 := by
  unfold aluNot
  rw [BitVec.toNat_and]
  exact Nat.and_le_right

/-- A truth value is 0 or 1 (43_compare.md R86). -/
theorem truthWord_le (p : Bool) : (truthWord p).toNat ≤ 32767 := by cases p <;> decide

/-- Every instruction has a next state, and its effect is one of the sixteen. -/
theorem exec_answers (i : Instr) (s : State) : Answers i s (exec i s) := by
  cases i with
  | halt => exact ⟨_, rfl, .halt⟩
  | noop => exact ⟨_, rfl, .quiet (.inl rfl)⟩
  | jmp x => exact ⟨_, rfl, .jump x (.inl ⟨x, rfl⟩)⟩
  | set a b => exact answers_withValue (by simp) fun v _ => answers_writeDest (by simp) rfl (by simp) (by simp) (by simp)
  | push b =>
    refine answers_withValue (by simp) fun v _ => ?_
    obtain ⟨-, e⟩ | ⟨hc, e⟩ := s.push_cases v <;> simp only [e]
    · exact answers_raised _ (by simp)
    · exact ⟨_, rfl, .push v hc⟩
  | pop a =>
    simp only [exec, execPop]
    obtain ⟨-, e⟩ | ⟨v, rest, hs, e⟩ := s.pop_cases <;> simp only [e]
    · exact answers_raised _ (by simp)
    · obtain ⟨r, rfl, e⟩ | ⟨-, e⟩ := writeDest_cases { s with stack := rest } a v <;> rw [e]
      · exact ⟨_, rfl, .popWrite r v rest hs⟩
      · exact ⟨_, rfl, .popFault v rest _ hs⟩
  | eq a b c =>
    exact answers_withValues (by simp) fun v w _ _ =>
      answers_writeDest (by simp) rfl (by simp) (by simp) fun _ => truthWord_le _
  | gt a b c =>
    exact answers_withValues (by simp) fun v w _ _ =>
      answers_writeDest (by simp) rfl (by simp) (by simp) fun _ => truthWord_le _
  | jt b x =>
    refine answers_withValue (by simp) fun v _ => ?_
    split
    · exact ⟨_, rfl, .quiet (.inr (.inl ⟨b, x, rfl⟩))⟩
    · exact answers_withValue (by simp) fun w _ => ⟨_, rfl, .jump w (.inr (.inl ⟨b, x, rfl⟩))⟩
  | jf b x =>
    refine answers_withValue (by simp) fun v _ => ?_
    split
    · exact answers_withValue (by simp) fun w _ => ⟨_, rfl, .jump w (.inr (.inr ⟨b, x, rfl⟩))⟩
    · exact ⟨_, rfl, .quiet (.inr (.inr ⟨b, x, rfl⟩))⟩
  | add a b c =>
    exact answers_withValues (by simp) fun v w _ _ =>
      answers_writeDest (by simp) rfl (by simp) (by simp) fun _ => toNat_mod_le _
  | mult a b c =>
    exact answers_withValues (by simp) fun v w _ _ =>
      answers_writeDest (by simp) rfl (by simp) (by simp) fun _ => toNat_mod_le _
  | mod a b c =>
    refine answers_withValues (by simp) fun v w _ _ => ?_
    split
    · exact answers_raised _ (by simp)
    · exact answers_writeDest (by simp) rfl (by simp) (by simp) (by simp)
  | and a b c =>
    exact answers_withValues (by simp) fun v w _ _ => answers_writeDest (by simp) rfl (by simp) (by simp) (by simp)
  | or a b c =>
    exact answers_withValues (by simp) fun v w _ _ => answers_writeDest (by simp) rfl (by simp) (by simp) (by simp)
  | not a b =>
    exact answers_withValue (by simp) fun v _ => answers_writeDest (by simp) rfl (by simp) (by simp) fun _ => aluNot_le v
  | rmem a x =>
    exact answers_withValue (by simp) fun v _ => answers_writeDest (by simp) rfl (by simp) (by simp) (by simp)
  | wmem x b => exact answers_withValues (by simp) fun v w hv hw => ⟨_, rfl, .store v w hv hw⟩
  | call x =>
    simp only [exec, execCall]
    split
    · exact answers_raised _ (by simp)
    · obtain ⟨-, e⟩ | ⟨hc, e⟩ := s.push_cases s.pcWord <;> simp only [e]
      · exact answers_raised _ (by simp)
      · obtain ⟨w, -, e⟩ | ⟨code, -, e⟩ := withValue_cases { s with stack := s.pcWord :: s.stack } x
          fun t => .next ({ s with stack := s.pcWord :: s.stack }.setPc t) <;> rw [e]
        · exact ⟨_, rfl, .call w hc⟩
        · exact ⟨_, rfl, .callFault _ hc⟩
  | ret =>
    simp only [exec, execRet]
    obtain ⟨-, e⟩ | ⟨v, rest, hs, e⟩ := s.pop_cases <;> simp only [e]
    · exact answers_raised _ (by simp)
    · exact ⟨_, rfl, .ret v rest hs⟩
  | output b => exact answers_withValue (by simp) fun v _ => ⟨_, rfl, .output _⟩
  | input a =>
    simp only [exec, execInput]
    obtain ⟨hs, e⟩ | ⟨ch, rest, hs, e⟩ := s.consoleRead_cases <;> simp only [e]
    · exact ⟨_, rfl, .inputHeld hs⟩
    · obtain ⟨r, rfl, e⟩ | ⟨-, e⟩ := writeDest_cases { s with input := rest } a (ch.setWidth 16) <;> rw [e]
      · exact ⟨_, rfl, .inputWrite r ch rest hs⟩
      · exact ⟨_, rfl, .inputFault ch rest _ hs⟩

/-- What an instruction that answers `t` has done. -/
theorem exec_effect {i : Instr} {s t : State} (h : exec i s = .next t) : Effect i s t := by
  obtain ⟨u, hu, e⟩ := exec_answers i s
  rw [h] at hu
  cases hu
  exact e

/-- Every instruction has a next state. -/
theorem exec_next (i : Instr) (s : State) : ∃ t, exec i s = .next t :=
  let ⟨t, h, _⟩ := exec_answers i s
  ⟨t, h⟩

end Sys2Proof.Machine
end

