-- ==== Sys2Proof/Laws/Fetch.lean ====
section
/-! SUPPORT. What a fetch can answer, and how the program counter adds up (40_step_and_resolver.md R65, R66). -/

namespace Sys2Proof.Machine

/-- Below the top, a fetch gives the cell at the counter and moves on by one. -/
theorem fetch_ok {s : State} (h : s.pc.val < 65536) : fetch s = .ok (s.mem.readCell s.pcWord, s.advance 1) := by
  have : s.pc.val ≠ 65536 := by omega
  simp [fetch, Config.memCells, this]

/-- At the top, a fetch raises PcOutOfRange. -/
theorem fetch_top {s : State} (h : s.pc.val = 65536) : fetch s = .error (s.raise ⟨.pcOutOfRange, none⟩) := by
  simp [fetch, Config.memCells, h]

/-- All that a fetch can answer. -/
theorem fetch_cases (s : State) :
    (s.pc.val < 65536 ∧ fetch s = .ok (s.mem.readCell s.pcWord, s.advance 1)) ∨
    (s.pc.val = 65536 ∧ fetch s = .error (s.raise ⟨.pcOutOfRange, none⟩)) := by
  have := s.pc.isLt
  by_cases h : s.pc.val = 65536
  · exact .inr ⟨h, fetch_top h⟩
  · exact .inl ⟨by omega, fetch_ok (by omega)⟩

/-- Moving on by `m` and then by `n` is moving on by `m + n`. -/
theorem State.advance_advance (s : State) (m n : Nat) : (s.advance m).advance n = s.advance (m + n) := by
  unfold State.advance
  congr 1
  apply Fin.ext
  simp only
  omega

/-- With room left, the counter moves on by exactly `n`. -/
theorem State.advance_pc_val {s : State} {n : Nat} (h : s.pc.val + n ≤ 65536) :
    (s.advance n).pc.val = s.pc.val + n := by
  simp only [State.advance_pc]
  omega

/-- Moving on and back again, with room left, is no move. -/
theorem State.retreat_advance {s : State} {n : Nat} (h : s.pc.val + n ≤ 65536) : (s.advance n).retreat n = s := by
  unfold State.retreat State.advance
  have : (⟨min (s.pc.val + n) 65536 - n, by omega⟩ : Pc) = s.pc := by
    apply Fin.ext
    simp only
    omega
  simp only [this]

end Sys2Proof.Machine
end

