-- ==== Sys2Proof/Laws/Memory.lean ====
section
/-! SUPPORT. The memory operations keep the canonical form, a read after a write gives the value written, and a write
leaves every other place alone (20_memory.md R34 to R36). -/

namespace Sys2Proof.Machine

/-! ### Canonical form -/

theorem Memory.wfFrom_mono {lo lo' : Nat} (hle : lo' ≤ lo) {m : Memory} (h : Memory.wfFrom lo m = true) :
    Memory.wfFrom lo' m = true := by
  cases m with
  | nil => rfl
  | cons c m =>
    simp only [Memory.wfFrom, Bool.and_eq_true, decide_eq_true_eq] at h ⊢
    exact ⟨⟨⟨Nat.le_trans hle h.1.1.1, h.1.1.2⟩, h.1.2⟩, h.2⟩

/-- A byte put in front of a memory that starts above it. -/
theorem Memory.wfFrom_consByte {lo a : Nat} {b : Byte} {m : Memory} (hlo : lo ≤ a) (ha : a < 2 * Config.memCells)
    (h : Memory.wfFrom (a + 1) m = true) : Memory.wfFrom lo (Memory.consByte a b m) = true := by
  unfold Memory.consByte
  split
  · exact Memory.wfFrom_mono (by omega) h
  · simp_all [Memory.wfFrom]

theorem Memory.wfFrom_writeByte {lo a : Nat} {b : Byte} {m : Memory} (hlo : lo ≤ a) (ha : a < 2 * Config.memCells)
    (h : Memory.wfFrom lo m = true) : Memory.wfFrom lo (m.writeByte a b) = true := by
  induction m generalizing lo with
  | nil => exact Memory.wfFrom_consByte hlo ha rfl
  | cons c m ih =>
    obtain ⟨k, c⟩ := c
    simp only [Memory.wfFrom, Bool.and_eq_true, decide_eq_true_eq] at h
    obtain ⟨⟨⟨hk, hk'⟩, hc⟩, hm⟩ := h
    unfold Memory.writeByte
    split
    · refine Memory.wfFrom_consByte hlo ha ?_
      simp only [Memory.wfFrom, Bool.and_eq_true, decide_eq_true_eq]
      exact ⟨⟨⟨by omega, hk'⟩, hc⟩, hm⟩
    · split
      · exact Memory.wfFrom_consByte hlo ha (Memory.wfFrom_mono (by omega) hm)
      · simp only [Memory.wfFrom, Bool.and_eq_true, decide_eq_true_eq]
        exact ⟨⟨⟨hk, hk'⟩, hc⟩, ih (by omega) hm⟩

/-- A byte write keeps the canonical form. -/
theorem Memory.wf_writeByte {m : Memory} {a : Nat} {b : Byte} (ha : a < 2 * Config.memCells) (h : m.wf = true) :
    (m.writeByte a b).wf = true :=
  Memory.wfFrom_writeByte (Nat.zero_le a) ha h

/-- A cell write keeps the canonical form. -/
theorem Memory.wf_writeCell {m : Memory} (a v : Word) (h : m.wf = true) : (m.writeCell a v).wf = true := by
  have := a.isLt
  unfold Memory.writeCell
  refine Memory.wf_writeByte ?_ (Memory.wf_writeByte ?_ h) <;> simp only [Config.memCells] <;> omega

/-- Storing words keeps the canonical form. -/
theorem Memory.wf_storeWords {m : Memory} {a : Nat} {ws : List Word} (h : m.wf = true) :
    (m.storeWords a ws).wf = true := by
  induction ws generalizing m a with
  | nil => exact h
  | cons w ws ih =>
    unfold Memory.storeWords
    split
    · exact ih (Memory.wf_writeCell _ _ h)
    · exact h

theorem Memory.wfFrom_ofBytesFrom {a : Nat} {bs : List Byte} (h : a + bs.length ≤ 2 * Config.memCells) :
    Memory.wfFrom a (Memory.ofBytesFrom a bs) = true := by
  induction bs generalizing a with
  | nil => rfl
  | cons b bs ih =>
    simp only [List.length_cons] at h
    exact Memory.wfFrom_consByte (Nat.le_refl a) (by omega) (ih (by omega))

/-- The memory of an image that fits is canonical. -/
theorem Memory.wf_ofBytesFrom {bs : List Byte} (h : bs.length ≤ 2 * Config.memCells) :
    (Memory.ofBytesFrom 0 bs).wf = true :=
  Memory.wfFrom_ofBytesFrom (by omega)

/-- The memory at reset is canonical. -/
theorem State.reset_mem_wf : State.reset.mem.wf = true := rfl

/-! ### Reading -/

/-- Below its first address a canonical memory lists nothing. -/
theorem Memory.readByte_below {lo a : Nat} {m : Memory} (h : Memory.wfFrom lo m = true) (ha : a < lo) :
    m.readByte a = unlistedByte := by
  induction m generalizing lo with
  | nil => rfl
  | cons c m ih =>
    obtain ⟨k, c⟩ := c
    simp only [Memory.wfFrom, Bool.and_eq_true, decide_eq_true_eq] at h
    have hka : k ≠ a := by omega
    simp only [Memory.readByte, hka, if_false]
    exact ih h.2 (by omega)

theorem Memory.readByte_consByte_other {k a : Nat} (b : Byte) (m : Memory) (h : a ≠ k) :
    (Memory.consByte k b m).readByte a = m.readByte a := by
  unfold Memory.consByte
  split
  · rfl
  · simp [Memory.readByte, h.symm]

theorem Memory.readByte_consByte_same {a : Nat} (b : Byte) {m : Memory} (h : m.readByte a = unlistedByte) :
    (Memory.consByte a b m).readByte a = b := by
  unfold Memory.consByte
  split
  · simp_all
  · simp [Memory.readByte]

/-- A byte write leaves every other byte alone, in any memory. -/
theorem Memory.readByte_writeByte_other {a x : Nat} (b : Byte) (m : Memory) (h : x ≠ a) :
    (m.writeByte a b).readByte x = m.readByte x := by
  induction m with
  | nil => exact Memory.readByte_consByte_other b [] h
  | cons c m ih =>
    obtain ⟨k, c⟩ := c
    unfold Memory.writeByte
    split
    · exact Memory.readByte_consByte_other b _ h
    · split
      · next hak => subst hak; rw [Memory.readByte_consByte_other b m h]; simp [Memory.readByte, h.symm]
      · simp only [Memory.readByte]; split <;> simp [ih]

/-- A byte read after a byte write to the same place, in a canonical memory. -/
theorem Memory.readByte_writeByte_same {a : Nat} (b : Byte) {m : Memory} (h : m.wf = true) :
    (m.writeByte a b).readByte a = b := by
  suffices ∀ lo, Memory.wfFrom lo m = true → (m.writeByte a b).readByte a = b from this 0 h
  clear h
  intro lo h
  induction m generalizing lo with
  | nil => exact Memory.readByte_consByte_same b rfl
  | cons c m ih =>
    obtain ⟨k, c⟩ := c
    simp only [Memory.wfFrom, Bool.and_eq_true, decide_eq_true_eq] at h
    unfold Memory.writeByte
    split
    · next hak =>
      refine Memory.readByte_consByte_same b (Memory.readByte_below (lo := k) ?_ hak)
      simp only [Memory.wfFrom, Bool.and_eq_true, decide_eq_true_eq]
      exact ⟨⟨⟨Nat.le_refl k, h.1.1.2⟩, h.1.2⟩, h.2⟩
    · split
      · next hak => exact Memory.readByte_consByte_same b (Memory.readByte_below h.2 (by omega))
      · next hne => simp only [Memory.readByte, Ne.symm hne, if_false]; exact ih _ h.2

/-! ### Cells -/

/-- A word is its two bytes (20_memory.md R32). -/
@[simp] theorem wordOfBytes_low_high (w : Word) : wordOfBytes (lowByte w) (highByte w) = w := by
  have := w.isLt
  apply BitVec.eq_of_toNat_eq
  simp only [wordOfBytes, lowByte, highByte, BitVec.toNat_ofNat, BitVec.toNat_setWidth, BitVec.toNat_ushiftRight,
    Nat.shiftRight_eq_div_pow]
  omega

/-- A cell read after a write to the same cell (20_memory.md R36), in a canonical memory. -/
theorem Memory.readCell_writeCell_same {m : Memory} (h : m.wf = true) (a v : Word) :
    (m.writeCell a v).readCell a = v := by
  have ha := a.isLt
  have h1 : (Memory.writeByte m (2 * a.toNat) (lowByte v)).wf = true :=
    Memory.wf_writeByte (by simp only [Config.memCells]; omega) h
  unfold Memory.readCell Memory.writeCell
  rw [Memory.readByte_writeByte_other _ _ (by omega), Memory.readByte_writeByte_same _ h,
    Memory.readByte_writeByte_same _ h1, wordOfBytes_low_high]

/-- A cell write leaves every byte outside the cell alone. -/
theorem Memory.readByte_writeCell_other {x : Nat} (m : Memory) (a v : Word) (h : x ≠ 2 * a.toNat)
    (h' : x ≠ 2 * a.toNat + 1) : (m.writeCell a v).readByte x = m.readByte x := by
  unfold Memory.writeCell
  rw [Memory.readByte_writeByte_other _ _ h', Memory.readByte_writeByte_other _ _ h]

/-- A cell write leaves every other cell alone, in any memory (20_memory.md R35). -/
theorem Memory.readCell_writeCell_other (m : Memory) {a x : Word} (v : Word) (h : x ≠ a) :
    (m.writeCell a v).readCell x = m.readCell x := by
  have hne : x.toNat ≠ a.toNat := fun e => h (BitVec.eq_of_toNat_eq e)
  unfold Memory.readCell
  rw [Memory.readByte_writeCell_other m a v (by omega) (by omega),
    Memory.readByte_writeCell_other m a v (by omega) (by omega)]

/-- The bytes of an image, and 0 beyond them (70_reset_and_hazards.md R135). -/
theorem Memory.readByte_ofBytesFrom (bs : List Byte) (a j : Nat) :
    (Memory.ofBytesFrom a bs).readByte (a + j) = bs.getD j unlistedByte := by
  induction bs generalizing a j with
  | nil => rfl
  | cons b bs ih =>
    cases j with
    | zero =>
      refine Memory.readByte_consByte_same b ?_
      have below : ∀ (cs : List Byte) (k x : Nat), x < k → (Memory.ofBytesFrom k cs).readByte x = unlistedByte := by
        intro cs
        induction cs with
        | nil => intros; rfl
        | cons c cs ih' =>
          intro k x hx
          rw [Memory.ofBytesFrom, Memory.readByte_consByte_other _ _ (by omega)]
          exact ih' _ _ (by omega)
      exact below bs (a + 1) (a + 0) (by omega)
    | succ j =>
      rw [Memory.ofBytesFrom, Memory.readByte_consByte_other _ _ (by omega), show a + (j + 1) = a + 1 + j by omega, ih]
      simp

end Sys2Proof.Machine
end

