-- ==== Sys2Proof/Laws/PerInstr.lean ====
section
/-! SUPPORT. The family `Length`, one lemma per constructor: an instruction is its opcode word and at most three operand
words (30_encoding.md R47, R48). -/

namespace Sys2Proof.Laws

/-- 1 to 4 words (R47, with MAX_OPERANDS of 00_scope.md R5). -/
def Length.Statement (i : Instr) : Prop :=
  1 ≤ (encode i).length ∧ (encode i).length ≤ 1 + Config.maxOperands

theorem Length.halt : Length.Statement .halt := by simp [Length.Statement, encode, Config.maxOperands]
theorem Length.set (a b : Operand) : Length.Statement (.set a b) := by simp [Length.Statement, encode, Config.maxOperands]
theorem Length.push (b : Operand) : Length.Statement (.push b) := by simp [Length.Statement, encode, Config.maxOperands]
theorem Length.pop (a : Operand) : Length.Statement (.pop a) := by simp [Length.Statement, encode, Config.maxOperands]
theorem Length.eq (a b c : Operand) : Length.Statement (.eq a b c) := by simp [Length.Statement, encode, Config.maxOperands]
theorem Length.gt (a b c : Operand) : Length.Statement (.gt a b c) := by simp [Length.Statement, encode, Config.maxOperands]
theorem Length.jmp (x : Word) : Length.Statement (.jmp x) := by simp [Length.Statement, encode, Config.maxOperands]
theorem Length.jt (b x : Operand) : Length.Statement (.jt b x) := by simp [Length.Statement, encode, Config.maxOperands]
theorem Length.jf (b x : Operand) : Length.Statement (.jf b x) := by simp [Length.Statement, encode, Config.maxOperands]
theorem Length.add (a b c : Operand) : Length.Statement (.add a b c) := by simp [Length.Statement, encode, Config.maxOperands]
theorem Length.mult (a b c : Operand) : Length.Statement (.mult a b c) := by simp [Length.Statement, encode, Config.maxOperands]
theorem Length.mod (a b c : Operand) : Length.Statement (.mod a b c) := by simp [Length.Statement, encode, Config.maxOperands]
theorem Length.and (a b c : Operand) : Length.Statement (.and a b c) := by simp [Length.Statement, encode, Config.maxOperands]
theorem Length.or (a b c : Operand) : Length.Statement (.or a b c) := by simp [Length.Statement, encode, Config.maxOperands]
theorem Length.not (a b : Operand) : Length.Statement (.not a b) := by simp [Length.Statement, encode, Config.maxOperands]
theorem Length.rmem (a x : Operand) : Length.Statement (.rmem a x) := by simp [Length.Statement, encode, Config.maxOperands]
theorem Length.wmem (x b : Operand) : Length.Statement (.wmem x b) := by simp [Length.Statement, encode, Config.maxOperands]
theorem Length.call (x : Operand) : Length.Statement (.call x) := by simp [Length.Statement, encode, Config.maxOperands]
theorem Length.ret : Length.Statement .ret := by simp [Length.Statement, encode, Config.maxOperands]
theorem Length.output (b : Operand) : Length.Statement (.output b) := by simp [Length.Statement, encode, Config.maxOperands]
theorem Length.input (a : Operand) : Length.Statement (.input a) := by simp [Length.Statement, encode, Config.maxOperands]
theorem Length.noop : Length.Statement .noop := by simp [Length.Statement, encode, Config.maxOperands]

end Sys2Proof.Laws
end

