-- ==== Sys2Proof/Machine/Assembly.lean ====
section
/-! DEFINITION. The spec's assembly notation: 30_encoding.md R60 to R62. A program is a list of items, the text's lines
with blanks and separators already taken away; `assemble` gives its words from address 0, and `showInstr` writes one
instruction in the notation. -/

namespace Sys2Proof.Machine

/-- An operand as written: `R0` to `R7`, a decimal word, or a label used as a number (R60). -/
inductive AsmOperand where
  | reg (r : Fin 8)
  | num (w : Word)
  | label (name : String)
deriving DecidableEq, Repr

/-- An item of a program (R60, R61). -/
inductive AsmItem where
  /-- `name:` stands for the address of the next word. -/
  | label (name : String)
  /-- `.word n` places the data word `n`. -/
  | word (n : AsmOperand)
  /-- A mnemonic with its operands. -/
  | instr (mnemonic : String) (operands : List AsmOperand)
deriving DecidableEq, Repr

/-- Why a program has no words. -/
inductive AsmError where
  /-- No instruction has this mnemonic (R61: there are no others). -/
  | unknownMnemonic (name : String)
  /-- The instruction has another number of operands (R48). -/
  | operandCount (name : String)
  /-- No item defines this label. -/
  | unknownLabel (name : String)
deriving DecidableEq, Repr

/-- The mnemonics with their operand counts, in the order of their opcode numbers (R53). -/
def mnemonicTable : List (String × Nat) :=
  [("HALT", 0), ("SET", 2), ("PUSH", 1), ("POP", 1), ("EQ", 3), ("GT", 3), ("JMP", 1), ("JT", 2), ("JF", 2), ("ADD", 3),
   ("MULT", 3)] ++
  [("MOD", 3), ("AND", 3), ("OR", 3), ("NOT", 2), ("RMEM", 2), ("WMEM", 2), ("CALL", 1), ("RET", 0), ("OUTPUT", 1),
   ("INPUT", 1), ("NOOP", 0)]

/-- How many words an item takes (R48, R60). -/
def AsmItem.size : AsmItem → Nat
  | .label _ => 0
  | .word _ => 1
  | .instr _ operands => 1 + operands.length

/-- The address a label stands for, in items that start at address `a`. -/
def labelAddress (name : String) : Nat → List AsmItem → Option Nat
  | _, [] => none
  | a, .label n :: items => if n = name then some a else labelAddress name a items
  | a, item :: items => labelAddress name (a + item.size) items

/-- The word of an operand as written (R60): a register's code, the number itself, or the label's address. -/
def AsmOperand.toWord (program : List AsmItem) : AsmOperand → Except AsmError Word
  | .reg r => .ok (Operand.register r).code
  | .num w => .ok w
  | .label name =>
    match labelAddress name 0 program with
    | none => .error (.unknownLabel name)
    | some a => .ok (BitVec.ofNat 16 a)

/-- The words of operands as written. -/
def operandWords (program : List AsmItem) : List AsmOperand → Except AsmError (List Word)
  | [] => .ok []
  | o :: os =>
    match o.toWord program, operandWords program os with
    | .ok w, .ok ws => .ok (w :: ws)
    | .error e, _ => .error e
    | _, .error e => .error e

/-- The opcode number and operand count of a mnemonic, in a table whose first row has number `n`. -/
def findMnemonic (name : String) : Nat → List (String × Nat) → Option (Nat × Nat)
  | _, [] => none
  | n, (m, k) :: rows => if m = name then some (n, k) else findMnemonic name (n + 1) rows

/-- The words of one item of a program. -/
def AsmItem.words (program : List AsmItem) : AsmItem → Except AsmError (List Word)
  | .label _ => .ok []
  | .word n => operandWords program [n]
  | .instr name operands =>
    match findMnemonic name 0 mnemonicTable with
    | none => .error (.unknownMnemonic name)
    | some (op, k) =>
      if operands.length = k then
        match operandWords program operands with
        | .ok ws => .ok (BitVec.ofNat 16 op :: ws)
        | .error e => .error e
      else .error (.operandCount name)

/-- The words of a list of items of a program. -/
def assembleItems (program : List AsmItem) : List AsmItem → Except AsmError (List Word)
  | [] => .ok []
  | item :: items =>
    match item.words program, assembleItems program items with
    | .ok ws, .ok ws' => .ok (ws ++ ws')
    | .error e, _ => .error e
    | _, .error e => .error e

/-- The words of a program assembled at address 0 (R60, R62); its image is `bytesOfWords` of them (R62). -/
def assemble (program : List AsmItem) : Except AsmError (List Word) := assembleItems program program

/-- An operand in the notation: a register's name, or the operand word in decimal (R60). -/
def showOperand : Operand → String
  | .register r => "R" ++ Nat.repr r.val
  | o => Nat.repr o.code.toNat

/-- An instruction in the notation: the mnemonic, then its operands with commas between (R60). -/
def showInstr : Instr → String
  | .halt => "HALT"
  | .set a b => "SET " ++ showOperand a ++ "," ++ showOperand b
  | .push b => "PUSH " ++ showOperand b
  | .pop a => "POP " ++ showOperand a
  | .eq a b c => "EQ " ++ showOperand a ++ "," ++ showOperand b ++ "," ++ showOperand c
  | .gt a b c => "GT " ++ showOperand a ++ "," ++ showOperand b ++ "," ++ showOperand c
  | .jmp x => "JMP " ++ Nat.repr x.toNat
  | .jt b x => "JT " ++ showOperand b ++ "," ++ showOperand x
  | .jf b x => "JF " ++ showOperand b ++ "," ++ showOperand x
  | .add a b c => "ADD " ++ showOperand a ++ "," ++ showOperand b ++ "," ++ showOperand c
  | .mult a b c => "MULT " ++ showOperand a ++ "," ++ showOperand b ++ "," ++ showOperand c
  | .mod a b c => "MOD " ++ showOperand a ++ "," ++ showOperand b ++ "," ++ showOperand c
  | .and a b c => "AND " ++ showOperand a ++ "," ++ showOperand b ++ "," ++ showOperand c
  | .or a b c => "OR " ++ showOperand a ++ "," ++ showOperand b ++ "," ++ showOperand c
  | .not a b => "NOT " ++ showOperand a ++ "," ++ showOperand b
  | .rmem a x => "RMEM " ++ showOperand a ++ "," ++ showOperand x
  | .wmem x b => "WMEM " ++ showOperand x ++ "," ++ showOperand b
  | .call x => "CALL " ++ showOperand x
  | .ret => "RET"
  | .output b => "OUTPUT " ++ showOperand b
  | .input a => "INPUT " ++ showOperand a
  | .noop => "NOOP"

end Sys2Proof.Machine
end

