-- ==== Sys2Proof/Tests/Slice0.lean ====
section
/-! SUPPORT. The model's own tests: the well-formedness check, decoding by words written out from the opcode map, one
step each from the vectors of 95_test_vectors.md, and a witness for the hypotheses of every statement. -/

namespace Sys2Proof.Tests

open Sys2Proof.Machine

/-- The machine launched with these words at cell 0 and start address 0. -/
def loaded (ws : List Word) : State := { State.reset with mem := Memory.ofBytesFrom 0 (bytesOfWords ws) }

/-- The same with registers R0, R1, R2 set. -/
def loadedWith (ws : List Word) (r0 r1 r2 : Word) : State :=
  ((((loaded ws).writeReg 0 r0).writeReg 1 r1).writeReg 2 r2)

/-- The machine with these words at cell `p` and the counter there. -/
def loadedAt (p : Pc) (ws : List Word) : State :=
  { State.reset with mem := Memory.storeWords [] p.val ws, pc := p }

/-- A field of the next state, where there is one. -/
def look {α : Type} (r : Result) (f : State → α) : Option α :=
  match r with
  | .next t => some (f t)
  | .fault _ => none
  | .refused _ => none

/-! ### Well-formedness: an ill-formed operand in each place is refused -/

theorem test_wf_operand : (Operand.invalid 32775).wellFormed = false ∧ (Operand.invalid 32776).wellFormed = true := by decide
theorem test_wf_two_operands :
    [Instr.set (.invalid 0) (.literal 0), .set (.literal 0) (.invalid 0), .not (.invalid 5) (.literal 0),
      .not (.literal 0) (.invalid 5), .rmem (.invalid 1) (.literal 0), .rmem (.literal 0) (.invalid 1),
      .wmem (.invalid 1) (.literal 0), .wmem (.literal 0) (.invalid 1), .jt (.invalid 1) (.literal 0),
      .jt (.literal 0) (.invalid 1), .jf (.invalid 1) (.literal 0), .jf (.literal 0) (.invalid 1)].all
      (fun i => !i.wellFormed) = true := by decide
theorem test_wf_one_operand :
    [Instr.push (.invalid 0), .pop (.invalid 0), .call (.invalid 0), .output (.invalid 0), .input (.invalid 0)].all
      (fun i => !i.wellFormed) = true := by decide
theorem test_wf_three_operands :
    [Instr.eq, Instr.gt, Instr.add, Instr.mult, Instr.mod, Instr.and, Instr.or].all (fun mk =>
      !(mk (.invalid 9) (.literal 0) (.literal 0)).wellFormed && !(mk (.literal 0) (.invalid 9) (.literal 0)).wellFormed &&
      !(mk (.literal 0) (.literal 0) (.invalid 9)).wellFormed && (mk (.register 0) (.literal 0) (.invalid 40000)).wellFormed) = true := by
  decide

/-! ### Decoding: each constructor by its words, written out from 30_encoding.md R49 and R53 -/

theorem test_decode_halt : decode [0x0000] = .ok (.halt, []) := by rfl
theorem test_decode_set : decode [0x0001, 0x8000, 0x0004] = .ok (.set (.register 0) (.literal 4), []) := by rfl
theorem test_decode_push : decode [0x0002, 0x7FFF] = .ok (.push (.literal 32767), []) := by rfl
theorem test_decode_pop : decode [0x0003, 0x8001] = .ok (.pop (.register 1), []) := by rfl
theorem test_decode_eq : decode [0x0004, 0x8000, 0x8001, 0x8002] = .ok (.eq (.register 0) (.register 1) (.register 2), []) := by rfl
theorem test_decode_gt : decode [0x0005, 0x8007, 0x0007, 0x0003] = .ok (.gt (.register 7) (.literal 7) (.literal 3), []) := by rfl
theorem test_decode_jmp : decode [0x0006, 0x8008] = .ok (.jmp 0x8008, []) := by rfl
theorem test_decode_jt : decode [0x0007, 0x8003, 0x0032] = .ok (.jt (.register 3) (.literal 50), []) := by rfl
theorem test_decode_jf : decode [0x0008, 0x0000, 0x8004] = .ok (.jf (.literal 0) (.register 4), []) := by rfl
theorem test_decode_add : decode [0x0009, 0x8000, 0x8001, 0x0004] = .ok (.add (.register 0) (.register 1) (.literal 4), []) := by rfl
theorem test_decode_mult : decode [0x000A, 0x8005, 0x012C, 0x00C8] = .ok (.mult (.register 5) (.literal 300) (.literal 200), []) := by rfl
theorem test_decode_mod : decode [0x000B, 0x8006, 0x0011, 0x0005] = .ok (.mod (.register 6) (.literal 17) (.literal 5), []) := by rfl
theorem test_decode_and : decode [0x000C, 0x8000, 0x000C, 0x000A] = .ok (.and (.register 0) (.literal 12) (.literal 10), []) := by rfl
theorem test_decode_or : decode [0x000D, 0x8000, 0x000C, 0x8007] = .ok (.or (.register 0) (.literal 12) (.register 7), []) := by rfl
theorem test_decode_not : decode [0x000E, 0x8002, 0x5555] = .ok (.not (.register 2) (.literal 21845), []) := by rfl
theorem test_decode_rmem : decode [0x000F, 0x8000, 0x0064] = .ok (.rmem (.register 0) (.literal 100), []) := by rfl
theorem test_decode_wmem : decode [0x0010, 0x00C8, 0x8001] = .ok (.wmem (.literal 200) (.register 1), []) := by rfl
theorem test_decode_call : decode [0x0011, 0x012C] = .ok (.call (.literal 300), []) := by rfl
theorem test_decode_ret : decode [0x0012] = .ok (.ret, []) := by rfl
theorem test_decode_output : decode [0x0013, 0x8000] = .ok (.output (.register 0), []) := by rfl
theorem test_decode_input : decode [0x0014, 0x8002] = .ok (.input (.register 2), []) := by rfl
theorem test_decode_noop : decode [0x0015, 0x0000] = .ok (.noop, [0]) := by rfl
theorem test_decode_invalid_operands :
    decode [0x0001, 0x8008, 0xFFFF] = .ok (.set (.invalid 32776) (.invalid 65535), []) := by rfl
theorem test_decode_22 : decode [0x0016, 0, 0, 0] = .error (.invalidOpcode 22) := by rfl
theorem test_decode_register_code_is_no_opcode : decode [0x8000] = .error (.invalidOpcode 32768) := by rfl
theorem test_decode_short : decode [0x0009, 0x8000, 0x0001] = .error .outOfWords := by rfl
/-- The image bytes of R62's example. -/
theorem test_decode_bytes :
    decodeBytes [0x01, 0x00, 0x00, 0x80, 0x04, 0x00, 0x13, 0x00] = .ok (.set (.register 0) (.literal 4), [0x13, 0x00]) := by rfl
theorem test_table_word_halt : decodeTableWord 16 0 = some .halt := by rfl
theorem test_table_word_add :
    decodeTableWord 64 0x0004800180000009 = some (.add (.register 0) (.register 1) (.literal 4)) := by rfl
theorem test_table_word_short : decodeTableWord 16 16 = some (.wmem (.literal 0) (.literal 0)) := by rfl
theorem test_table_word_none : decodeTableWord 16 22 = none := by rfl
theorem test_fetch_word_runs : look (step (State.reset.withFetchWord 48 0x000480000001)) (fun t => t.regs[0]) = some 4 := by decide

/-! ### One step each, from 95_test_vectors.md -/

theorem test_halt : look (step (loaded [0])) (fun t => (t.running, t.fault, t.haltNotice, t.pc)) = some (false, none, true, 1) := by decide
theorem test_halt_at_top :
    look (step (loadedAt 65535 [0])) (fun t => (t.running, t.fault, t.pc)) = some (false, none, 65536) := by decide
theorem test_noop : look (step (loaded [21])) id = some { loaded [21] with pc := 1 } := by decide
theorem test_set_wide : look (step (loadedWith [1, 32769, 32770] 0 0 65000)) (fun t => (t.regs[1], t.pc)) = some (65000, 3) := by decide
theorem test_set_source_first :
    look (step (loaded [1, 32776, 32776])) (fun t => (t.fault, t.faultInfo, t.regs, t.pc, t.running)) =
      some (some .malformedOperand, some 32776, Vector.replicate 8 0, 3, false) := by decide
theorem test_push : look (step (loadedWith [2, 32768] 50000 0 0)) (fun t => (t.stack, t.pc)) = some ([50000], 2) := by decide
theorem test_push_overflow :
    look (step { loaded [2, 3] with stack := [2, 1], stackCapacity := some 2 }) (fun t => (t.fault, t.stack)) =
      some (some .stackOverflow, [2, 1]) := by decide
theorem test_pop_bad_destination :
    look (step { loaded [3, 5] with stack := [9, 8] }) (fun t => (t.fault, t.stack, t.pc)) =
      some (some .invalidWriteTarget, [8], 2) := by decide
theorem test_pop_empty :
    look (step (loaded [3, 32768])) (fun t => (t.fault, t.running, t.haltNotice, t.pc)) =
      some (some .stackUnderflow, false, false, 2) := by decide
theorem test_eq : look (step (loadedWith [4, 32768, 32769, 32770] 7 32768 0)) (fun t => t.regs[0]) = some 0 := by decide
theorem test_gt : look (step (loadedWith [5, 32768, 32769, 32770] 7 65535 32768)) (fun t => t.regs[0]) = some 1 := by decide
theorem test_jmp_raw : look (step (loadedWith [6, 32768] 7 0 0)) (fun t => t.pc) = some 32768 := by decide
theorem test_jt_taken : look (step (loadedWith [7, 32768, 32769] 65535 50000 0)) (fun t => t.pc) = some 50000 := by decide
theorem test_jt_not_taken : look (step (loaded [7, 0, 40000])) (fun t => (t.pc, t.fault)) = some (3, none) := by decide
theorem test_jf_taken : look (step (loaded [8, 0, 50])) (fun t => t.pc) = some 50 := by decide
theorem test_jf_not_taken : look (step (loaded [8, 1, 40000])) (fun t => (t.pc, t.fault)) = some (3, none) := by decide
theorem test_add_wraps : look (step (loaded [9, 32768, 32760, 10])) (fun t => (t.regs[0], t.pc)) = some (2, 4) := by decide
theorem test_add_wide : look (step (loadedWith [9, 32768, 32768, 32768] 65535 0 0)) (fun t => t.regs[0]) = some 32766 := by decide
theorem test_mult : look (step (loadedWith [10, 32768, 32769, 32770] 0 50000 60000)) (fun t => t.regs[0]) = some 24064 := by decide
theorem test_mod_wide : look (step (loadedWith [11, 32768, 32769, 32770] 0 50000 60000)) (fun t => t.regs[0]) = some 50000 := by decide
theorem test_mod_by_zero : look (step (loaded [11, 7, 5, 0])) (fun t => (t.fault, t.pc)) = some (some .modByZero, 4) := by decide
theorem test_and : look (step (loadedWith [12, 32768, 32769, 32770] 0 50000 60000)) (fun t => t.regs[0]) = some 49728 := by decide
theorem test_or : look (step (loadedWith [13, 32768, 32769, 32770] 0 40000 7)) (fun t => t.regs[0]) = some 40007 := by decide
theorem test_not : look (step (loadedWith [14, 32768, 32769] 0 32768 0)) (fun t => t.regs[0]) = some 32767 := by decide
theorem test_not_middle : look (step (loaded [14, 32768, 21845])) (fun t => t.regs[0]) = some 10922 := by decide
theorem test_rmem_own_operand : look (step (loaded [15, 32768, 1])) (fun t => t.regs[0]) = some 32768 := by decide
theorem test_wmem_top :
    look (step (loadedWith [16, 32768, 32769] 65535 65535 0)) (fun t => (t.mem.readCell 65535, t.regs[0])) = some (65535, 65535) := by decide
theorem test_wmem_own_code : look (step (loaded [16, 0, 21])) (fun t => (t.mem.readCell 0, t.pc)) = some (21, 3) := by decide
theorem test_call :
    look (step (loadedAt 10 [17, 300])) (fun t => (t.stack, t.pc)) = some ([12], 300) ∧
      look (step (loaded [17, 40000])) (fun t => (t.fault, t.stack, t.pc)) = some (some .malformedOperand, [2], 2) := by decide
theorem test_ret_raw : look (step { loaded [18] with stack := [32768, 4] }) (fun t => (t.pc, t.stack)) = some (32768, [4]) := by decide
theorem test_ret_empty : look (step (loaded [18])) (fun t => (t.fault, t.pc)) = some (some .stackUnderflow, 1) := by decide
theorem test_output_256 : look (step (loadedWith [19, 32768] 256 0 0)) (fun t => t.output) = some [0] := by decide
theorem test_input : look (step { loaded [20, 32770] with input := [104, 105] }) (fun t => (t.regs[2], t.input)) = some (104, [105]) := by decide
theorem test_input_bad_destination :
    look (step { loaded [20, 5] with input := [122, 113] }) (fun t => (t.fault, t.input)) =
      some (some .invalidWriteTarget, [113]) := by decide
theorem test_input_held : look (step (loaded [20, 32768])) id = some (loaded [20, 32768]) := by decide

/-! ### The top of memory and bad opcodes (95_test_vectors.md 2.10) -/

theorem test_invalid_opcode : look (step (loaded [65535])) (fun t => (t.fault, t.pc)) = some (some .invalidOpcode, 1) := by decide
theorem test_noop_at_top : look (step (loadedAt 65535 [21])) (fun t => (t.pc, t.running)) = some (65536, true) := by decide
theorem test_fetch_at_65536 : look (step { State.reset with pc := 65536 }) (fun t => (t.fault, t.pc)) = some (some .pcOutOfRange, 65536) := by decide
theorem test_call_at_top :
    look (step (loadedAt 65534 [17, 0])) (fun t => (t.fault, t.stack)) = some (some .pcOutOfRange, []) := by decide
theorem test_straddles_top :
    look (step (loadedAt 65534 [9, 40000])) (fun t => (t.fault, t.pc)) = some (some .pcOutOfRange, 65536) := by decide
theorem test_jmp_at_top : look (step (loadedAt 65534 [6, 65535])) (fun t => t.pc) = some 65535 := by decide

/-! ### Launch (70_reset_and_hazards.md R135, R137) -/

/-- The launch that State.reset stands for. -/
theorem test_launch_empty : launch [] 0 [] none = .ok State.reset := by rfl
theorem test_launch_odd : launch [1, 0, 2] 0 [] none = .error .oddLength := by rfl
/-- The word list of the source's first scenario outputs the byte 4 and halts at 7 (95_test_vectors.md E1a). -/
theorem test_run_e1a :
    (runUntilHalted 3 (loaded [9, 32768, 32769, 4, 19, 32768, 0])).map (fun t => (t.output, t.regs[0], t.pc, t.fault)) =
      some ([4], 4, 7, none) := by decide

/-! ### The notation (30_encoding.md R60 to R62) -/

/-- R62's example. -/
theorem test_assemble :
    assemble [.instr "SET" [.reg 0, .num 4], .instr "OUTPUT" [.reg 0], .instr "HALT" []] = .ok [1, 32768, 4, 19, 32768, 0] := by
  rfl
/-- The loop of 95_test_vectors.md P1, with its label and a data word. -/
theorem test_assemble_label :
    assemble [.instr "SET" [.reg 1, .num 5], .label "loop", .instr "ADD" [.reg 1, .reg 1, .num 32767],
      .instr "JT" [.reg 1, .label "loop"], .word (.num 65535)] =
      .ok [1, 32769, 5, 9, 32769, 32769, 32767, 7, 32769, 3, 65535] := by
  rfl
theorem test_show : showInstr (.add (.register 0) (.literal 32760) (.literal 10)) = "ADD R0,32760,10" := by rfl

/-! ### Witnesses: a concrete state and operands for the hypotheses of each statement -/

theorem witness_DecodeOfEncode : (Instr.add (.register 7) (.literal 32767) (.invalid 32776)).wellFormed = true := by decide
theorem witness_ImageBytesDecode : (Instr.wmem (.invalid 65535) (.literal 0)).wellFormed = true := by decide
theorem witness_EncodeOfDecode : decode [17, 32768, 7] = .ok (.call (.register 0), [7]) := by rfl
theorem witness_OpcodeRange : 22 ≤ (22 : Word).toNat ∧ (21 : Word).toNat < 22 := by decide
theorem witness_ClassifyRanges :
    (32767 : Word).toNat ≤ 32767 ∧ 32768 ≤ (32768 : Word).toNat ∧ (32775 : Word).toNat ≤ 32775 ∧
      32776 ≤ (32776 : Word).toNat := by decide
theorem witness_ResolveByClass :
    (0 : Word).toNat ≤ 32767 ∧ (32775 : Word).toNat = 32768 + (7 : Fin 8).val ∧ 32776 ≤ (65535 : Word).toNat := by decide
theorem witness_WriteDestByClass :
    (32768 : Word).toNat = 32768 + (0 : Fin 8).val ∧ (32767 : Word).toNat ≤ 32767 ∧ 32776 ≤ (32776 : Word).toNat := by decide
theorem witness_PushOnStack :
    ({ State.reset with stack := [2, 1], stackCapacity := some 2 } : State).stackCapacity = some [2, 1].length ∧
      State.reset.stackCapacity ≠ some State.reset.stack.length := by decide
theorem witness_PopOffStack :
    State.reset.stack = [] ∧ ({ State.reset with stack := [6, 5] } : State).stack = 6 :: [5] := by decide
theorem witness_RaiseLatchesOnce :
    State.reset.fault = none ∧ ({ State.reset with fault := some .modByZero } : State).fault ≠ none := by decide
theorem witness_CellWriteThenRead :
    (loaded [9, 0, 65535]).mem.wf = true ∧ (1 : Word) ≠ 65535 ∧ 2 ≠ 2 * (0 : Word).toNat ∧ 2 ≠ 2 * (0 : Word).toNat + 1 := by decide
theorem witness_CanonicalMemoryIsUnique :
    Memory.wf [(0, 9)] = true ∧ Memory.wf (Memory.writeCell [] 0 9) = true ∧
      ∀ a : Word, Memory.readCell [(0, 9)] a = Memory.readCell (Memory.writeCell [] 0 9) a :=
  ⟨by decide, by decide, fun _ => rfl⟩
theorem witness_FetchReadsAndAdvances :
    ({ State.reset with pc := 65536 } : State).pc.val = 65536 ∧ (loadedAt 65535 [21]).pc.val ≠ 65536 := by decide
theorem witness_StepRunsDecodedInstr :
    (loadedAt 65534 [6, 65535]).running = true ∧
      decode ((loadedAt 65534 [6, 65535]).wordsAtPc 4) = .ok (.jmp 65535, []) := ⟨by rfl, by rfl⟩
theorem witness_HaltedHasNoStep : State.reset.halt.running = false := by decide
theorem witness_RunningAlwaysSteps : State.reset.running = true := by decide
theorem witness_InvalidOpcodeFaults : (loaded [22]).running = true ∧ codeAt (loaded [22]) [22] ∧ 22 ≤ (22 : Word).toNat := by decide
theorem witness_PcOutOfRangeFaults :
    ({ State.reset with pc := 65536 } : State).running = true ∧ ({ State.reset with pc := 65536 } : State).pc.val = 65536 ∧
      (loadedAt 65533 [9, 0, 0]).running = true ∧ codeAt (loadedAt 65533 [9, 0, 0]) [9] ∧ (9 : Word).toNat ≤ 21 ∧
      65536 < (loadedAt 65533 [9, 0, 0]).pc.val + 1 + operandCount (9 : Word).toNat := by decide

/-- What the statement of an instruction asks of the machine that fetches it. -/
abbrev fetchable (ws : List Word) (i : Instr) : Prop :=
  i.wellFormed = true ∧ (loaded ws).running = true ∧ codeAt (loaded ws) ws

theorem witness_HaltStops : fetchable [0] .halt := by decide
theorem witness_NoopDoesNothing : fetchable [21] .noop := by decide
theorem witness_JmpGoesToRawWord : fetchable [6, 65535] (.jmp 65535) := by decide

/-- What the clauses of an instruction's statement ask of its operands, each met in one state: sources with values at both
ends of their ranges, an Invalid source, a destination that is a register, and destinations of both other classes. -/
abbrev operandsMet : Prop :=
  let s := loadedWith [] 0 65535 1
  resolve s (.literal 0) = .ok 0 ∧ resolve s (.literal 32767) = .ok 32767 ∧ resolve s (.register 0) = .ok 0 ∧
  resolve s (.register 1) = .ok 65535 ∧ Operand.invalid 32776 = .invalid 32776 ∧ Operand.register 7 = .register 7 ∧
  (∀ r, Operand.literal 32767 ≠ .register r) ∧ (∀ r, Operand.invalid 32776 ≠ .register r)

theorem witness_operands : operandsMet :=
  ⟨rfl, rfl, rfl, rfl, rfl, rfl, fun _ h => Operand.noConfusion h, fun _ h => Operand.noConfusion h⟩

theorem witness_SetCopies :
    (fetchable [1, 32768, 32769] (.set (.register 0) (.register 1))) ∧ operandsMet := ⟨by decide, witness_operands⟩
theorem witness_PushPushes :
    (fetchable [2, 32767] (.push (.literal 32767)) ∧
      ({ loaded [2, 1] with stackCapacity := some 0 } : State).stackCapacity = some (loaded [2, 1]).stack.length ∧
      ({ loaded [2, 1] with stackCapacity := some 1 } : State).stackCapacity ≠ some (loaded [2, 1]).stack.length) ∧ operandsMet := ⟨by decide, witness_operands⟩
theorem witness_PopPops :
    (fetchable [3, 32775] (.pop (.register 7)) ∧ (loaded []).stack = [] ∧
      ({ loaded [] with stack := [65535] } : State).stack = 65535 :: []) ∧ operandsMet := ⟨by decide, witness_operands⟩
theorem witness_EqCompares :
    (fetchable [4, 32768, 32769, 0] (.eq (.register 0) (.register 1) (.literal 0))) ∧ operandsMet := ⟨by decide, witness_operands⟩
theorem witness_GtCompares :
    (fetchable [5, 32768, 32769, 0] (.gt (.register 0) (.register 1) (.literal 0))) ∧ operandsMet := ⟨by decide, witness_operands⟩
theorem witness_JtJumpsIfNonzero :
    (fetchable [7, 32769, 32776] (.jt (.register 1) (.invalid 32776)) ∧ (0 : Word).toNat = 0 ∧ (65535 : Word).toNat ≠ 0) ∧ operandsMet := ⟨by decide, witness_operands⟩
theorem witness_JfJumpsIfZero :
    (fetchable [8, 32769, 32776] (.jf (.register 1) (.invalid 32776)) ∧ (0 : Word).toNat = 0 ∧ (1 : Word).toNat ≠ 0) ∧ operandsMet := ⟨by decide, witness_operands⟩
theorem witness_AddIsSumMod32768 :
    (fetchable [9, 32768, 32767, 1] (.add (.register 0) (.literal 32767) (.literal 1))) ∧ operandsMet := ⟨by decide, witness_operands⟩
theorem witness_MultIsProductMod32768 :
    (fetchable [10, 32768, 32767, 32767] (.mult (.register 0) (.literal 32767) (.literal 32767))) ∧ operandsMet := ⟨by decide, witness_operands⟩
theorem witness_ModIsRemainder :
    (fetchable [11, 32768, 5, 0] (.mod (.register 0) (.literal 5) (.literal 0)) ∧ (0 : Word).toNat = 0 ∧ (1 : Word).toNat ≠ 0) ∧ operandsMet := ⟨by decide, witness_operands⟩
theorem witness_AndIsBitwise :
    (fetchable [12, 32768, 32769, 32770] (.and (.register 0) (.register 1) (.register 2))) ∧ operandsMet := ⟨by decide, witness_operands⟩
theorem witness_OrIsBitwise :
    (fetchable [13, 32768, 32769, 32770] (.or (.register 0) (.register 1) (.register 2))) ∧ operandsMet := ⟨by decide, witness_operands⟩
theorem witness_NotIsComplement15 :
    (fetchable [14, 32768, 32769] (.not (.register 0) (.register 1))) ∧ operandsMet := ⟨by decide, witness_operands⟩
theorem witness_RmemLoadsCell :
    (fetchable [15, 32768, 32767] (.rmem (.register 0) (.literal 32767))) ∧ operandsMet := ⟨by decide, witness_operands⟩
theorem witness_WmemStoresCell :
    (fetchable [16, 32767, 32769] (.wmem (.literal 32767) (.register 1)) ∧ (loaded [16, 32767, 32769]).mem.wf = true ∧
      (0 : Word) ≠ 32767 ∧ 65533 ≠ 2 * (32767 : Word).toNat ∧ 65536 ≠ 2 * (32767 : Word).toNat + 1) ∧ operandsMet := ⟨by decide, witness_operands⟩
theorem witness_CallPushesAndJumps :
    (fetchable [17, 32769] (.call (.register 1)) ∧ ({ loaded [] with pc := 65536 } : State).pc.val = 65536 ∧
      ({ loaded [] with pc := 65535 } : State).pc.val ≠ 65536 ∧
      ({ loaded [] with stackCapacity := some 0 } : State).stackCapacity = some (loaded []).stack.length ∧
      (loaded []).stackCapacity ≠ some (loaded []).stack.length) ∧ operandsMet := ⟨by decide, witness_operands⟩
theorem witness_RetPopsPc :
    fetchable [18] .ret ∧ (loaded []).stack = [] ∧ ({ loaded [] with stack := [65535, 1] } : State).stack = 65535 :: [1] := by decide
theorem witness_OutputWritesByte :
    (fetchable [19, 32769] (.output (.register 1))) ∧ operandsMet := ⟨by decide, witness_operands⟩
theorem witness_InputTakesByte :
    (fetchable [20, 32775] (.input (.register 7)) ∧ ({ loaded [] with input := [255] } : State).input = 255 :: []) ∧ operandsMet := ⟨by decide, witness_operands⟩
theorem witness_HeldInputWaits :
    (loaded [20, 32768]).running = true ∧ decode ((loaded [20, 32768]).wordsAtPc 4) = .ok (.input (.register 0), [0, 0]) ∧
      (loaded [20, 32768]).input = [] := ⟨by rfl, by rfl, by rfl⟩
theorem witness_MemoryChangesOnlyByWmem :
    exec .noop State.reset = .next State.reset ∧ (∀ x b, Instr.noop ≠ .wmem x b) ∧
      (∃ t, exec (.wmem (.literal 1) (.literal 5)) State.reset = .next t) ∧ resolve State.reset (.literal 1) = .ok 1 ∧
      0 ≠ 2 * (1 : Word).toNat ∧ 0 ≠ 2 * (1 : Word).toNat + 1 :=
  ⟨rfl, fun _ _ h => Instr.noConfusion h, ⟨_, rfl⟩, rfl, by decide, by decide⟩
theorem witness_StackChangesOnlyByStackInstrs :
    (∃ t, exec (.push (.literal 5)) State.reset = .next t ∧ t.stack ≠ State.reset.stack) ∧
      (∃ t, exec .ret { State.reset with stack := [7] } = .next t ∧ t.stack ≠ [7]) :=
  ⟨⟨_, rfl, by decide⟩, ⟨_, rfl, by decide⟩⟩
theorem witness_RegistersChangeOnlyAsDestination :
    ∃ t, exec (.set (.register 7) (.literal 5)) State.reset = .next t ∧ t.regs[(7 : Fin 8)] ≠ State.reset.regs[(7 : Fin 8)] :=
  ⟨_, rfl, by decide⟩
theorem witness_ConsoleChangesOnlyByConsoleInstrs :
    (∃ t, exec (.output (.literal 65)) State.reset = .next t ∧ t.output ≠ State.reset.output) ∧
      (∃ t, exec (.input (.register 0)) { State.reset with input := [7] } = .next t ∧ t.input ≠ [7]) :=
  ⟨⟨_, rfl, by decide⟩, ⟨_, rfl, by decide⟩⟩
theorem witness_PcMovesOnlyByRedirects :
    (∃ t, exec (.jmp 65535) State.reset = .next t ∧ t.pc ≠ State.reset.pc) ∧
      (∃ t, exec (.input (.register 0)) { State.reset with pc := 2 } = .next t ∧ t.pc ≠ 2) :=
  ⟨⟨_, rfl, by decide⟩, ⟨_, rfl, by decide⟩⟩
theorem witness_RunEndsOnlyByHaltOrFault :
    State.reset.running = true ∧ (∃ t, exec .halt State.reset = .next t ∧ t.running = false) ∧
      (∃ t, exec .ret State.reset = .next t ∧ t.running = false) :=
  ⟨rfl, ⟨_, rfl, rfl⟩, ⟨_, rfl, rfl⟩⟩
theorem witness_FaultsArePrecise :
    State.reset.running = true ∧ (∃ t, exec (.call (.invalid 32776)) State.reset = .next t ∧ t.running = false) ∧
      Instr.call (.invalid 32776) ≠ .halt :=
  ⟨rfl, ⟨_, rfl, rfl⟩, by decide⟩
theorem witness_PushThenPopReproduces :
    (let s := loadedWith [2, 32769, 3, 32775] 0 40000 0
     s.running = true ∧ (Operand.register 1).wellFormed = true ∧ codeAt s [2, 32769, 3, (Operand.register 7).code] ∧
     resolve s (.register 1) = .ok 40000 ∧ s.stackCapacity ≠ some s.stack.length) :=
  ⟨by rfl, by rfl, by decide, by rfl, by decide⟩
theorem witness_CallThenRetReturns :
    (let s := loaded [17, 4, 0, 0, 18]
     s.running = true ∧ (Operand.literal 4).wellFormed = true ∧ codeAt s [17, (Operand.literal 4).code] ∧
     resolve s (.literal 4) = .ok 4 ∧ s.pc.val + 2 ≠ 65536 ∧ s.stackCapacity ≠ some s.stack.length ∧
     ∃ t, step s = .next t ∧ t.running = true ∧ codeAt t [18]) :=
  ⟨by rfl, by rfl, by decide, by rfl, by decide, by decide, ⟨_, rfl, by rfl, by decide⟩⟩
theorem witness_ResultsFitFifteenBits :
    ∃ t, exec (.not (.register 0) (.literal 0)) State.reset = .next t ∧ t.regs[(0 : Fin 8)] ≠ State.reset.regs[(0 : Fin 8)] :=
  ⟨_, rfl, by decide⟩
theorem witness_NotTwice :
    (loadedWith [] 32767 32768 65535).regs[(0 : Fin 8)].toNat ≤ 32767 ∧
      32768 ≤ (loadedWith [] 32767 32768 65535).regs[(1 : Fin 8)].toNat := by decide
theorem witness_InvKeptByStep : State.reset.inv ∧ ∃ t, step State.reset = .next t := ⟨by decide, _, rfl⟩
theorem witness_LaunchGivesResetState :
    [1, 2, 3, 4].length % 2 = 0 ∧ [1, 2, 3, 4].length ≤ 131072 ∧ 2 * 1 + 1 < [1, 2, 3, 4].length ∧
      [1, 2, 3, 4].length ≤ 2 * (2 : Word).toNat := by decide
theorem witness_LaunchRefusesBadImages :
    ([7] : List Byte).length % 2 = 1 ∧ 131072 < (List.replicate 131074 (0 : Byte)).length := by
  rw [List.length_replicate]
  decide
theorem witness_RunReturnsOnlyWhenHalted :
    State.reset.inv ∧ ∃ t, runUntilHalted 1 State.reset = some t := ⟨by decide, _, rfl⟩
theorem witness_DeliveryCommutesWithStep :
    (∃ t, step (loaded [0]) = .next t) ∧ ¬ (loaded [0]).held ∧
      (∃ t, step { loaded [20, 32768] with input := [7] } = .next t) ∧
      ¬ ({ loaded [20, 32768] with input := [7] } : State).held :=
  ⟨⟨_, rfl⟩, (fun ⟨_, _, _, _, h⟩ => by cases h), ⟨_, rfl⟩, (fun h => by cases h.2.1)⟩
theorem witness_OutputIsNeverRead : ∃ t, step (loaded [19, 4]) = .next t := ⟨_, rfl⟩

end Sys2Proof.Tests
end

section
/-! PROOFS. The statements of 10_state.md: what each instruction leaves unchanged, the invariant, reset and launch. -/

namespace Sys2Proof

/-! ### Two runs of the decoder side by side -/

/-- Two readings agree: both give the same value and leave related sources, or both fail with related errors. -/
inductive Matched {σ τ ε δ α : Type} (R : σ → τ → Prop) (E : ε → δ → Prop) :
    Except ε (α × σ) → Except δ (α × τ) → Prop where
  | ok {x : σ} {y : τ} (v : α) (h : R x y) : Matched R E (.ok (v, x)) (.ok (v, y))
  | error {e : ε} {d : δ} (h : E e d) : Matched R E (.error e) (.error d)

section
variable {σ τ ε δ : Type} {next : σ → Except ε (Word × σ)} {next' : τ → Except δ (Word × τ)} {R : σ → τ → Prop}
  {E : ε → δ → Prop} {x : σ} {y : τ}

theorem operands1_matched (hn : ∀ x y, R x y → Matched R E (next x) (next' y)) (mk : Word → Instr) (hR : R x y) :
    Matched R E (operands1 next mk x) (operands1 next' mk y) := by
  have h := hn x y hR
  unfold operands1
  generalize next x = p, next' y = q at h
  cases h with
  | ok w h => exact .ok _ h
  | error h => exact .error h

theorem operands2_matched (hn : ∀ x y, R x y → Matched R E (next x) (next' y)) (mk : Word → Word → Instr)
    (hR : R x y) : Matched R E (operands2 next mk x) (operands2 next' mk y) := by
  have h := hn x y hR
  unfold operands2
  generalize next x = p, next' y = q at h
  cases h with
  | ok w h => exact operands1_matched hn (mk w) h
  | error h => exact .error h

theorem operands3_matched (hn : ∀ x y, R x y → Matched R E (next x) (next' y)) (mk : Word → Word → Word → Instr)
    (hR : R x y) : Matched R E (operands3 next mk x) (operands3 next' mk y) := by
  have h := hn x y hR
  unfold operands3
  generalize next x = p, next' y = q at h
  cases h with
  | ok w h => exact operands2_matched hn (mk w) h
  | error h => exact .error h

/-- Sources that agree word by word agree on the instruction, and on why there is none. -/
theorem decodeFrom_matched (hn : ∀ x y, R x y → Matched R E (next x) (next' y)) {bad : Word → σ → ε}
    {bad' : Word → τ → δ} (hbad : ∀ op x y, R x y → E (bad op x) (bad' op y)) (hR : R x y) :
    Matched R E (decodeFrom next bad x) (decodeFrom next' bad' y) := by
  have h := hn x y hR
  unfold decodeFrom
  generalize next x = p, next' y = q at h
  cases h with
  | error h => exact .error h
  | ok op h =>
    simp only
    split
    case h_1 | h_19 | h_22 => exact .ok _ h
    case h_3 | h_4 | h_7 | h_18 | h_20 | h_21 => exact operands1_matched hn _ h
    case h_2 | h_8 | h_9 | h_15 | h_16 | h_17 => exact operands2_matched hn _ h
    case h_5 | h_6 | h_10 | h_11 | h_12 | h_13 | h_14 => exact operands3_matched hn _ h
    case h_23 => exact .error (hbad op _ _ h)

end

end Sys2Proof

namespace Sys2Proof.Machine

/-! ### What the fetch phase and a step can answer -/

/-- Moving on by no words is no move. -/
@[simp] theorem State.advance_zero (s : State) : s.advance 0 = s := by
  have : (⟨min (s.pc.val + 0) 65536, by omega⟩ : Pc) = s.pc := Fin.ext (by simp only; omega)
  simp only [State.advance, this]

/-- Two runs of the fetch phase from `s` that have read alike stand at one state, `s` with the counter moved on. -/
def MovedOn (s u u' : State) : Prop := u = u' ∧ ∃ n, u = s.advance n

/-- Two runs of the fetch phase from `s` that have failed alike end in one raise, at some counter. -/
def RaisedOnTheWay (s t t' : State) : Prop := t = t' ∧ ∃ n trap, t = (s.advance n).raise trap

theorem fetch_movedOn {s u u' : State} (h : MovedOn s u u') :
    Matched (MovedOn s) (RaisedOnTheWay s) (fetch u) (fetch u') := by
  obtain ⟨rfl, n, rfl⟩ := h
  obtain ⟨-, e⟩ | ⟨-, e⟩ := fetch_cases (s.advance n) <;> rw [e]
  · exact .ok _ ⟨rfl, n + 1, s.advance_advance n 1⟩
  · exact .error ⟨rfl, n, _, rfl⟩

/-- The fetch phase moves the counter and does nothing else; if it fails, it ends in a raise at some counter. -/
theorem fetchInstr_cases (s : State) :
    (∃ i n, fetchInstr s = .ok (i, s.advance n)) ∨ (∃ n trap, fetchInstr s = .error ((s.advance n).raise trap)) := by
  have h : Matched (MovedOn s) (RaisedOnTheWay s) (fetchInstr s) (fetchInstr s) :=
    decodeFrom_matched (fun _ _ => fetch_movedOn)
      (fun op _ _ ⟨e, n, en⟩ => ⟨by rw [e], n, ⟨.invalidOpcode, some op⟩, by rw [en]⟩) ⟨rfl, 0, s.advance_zero.symm⟩
  generalize fetchInstr s = p at h ⊢
  cases h with
  | ok i h => obtain ⟨-, n, rfl⟩ := h; exact .inl ⟨i, n, rfl⟩
  | error h => obtain ⟨-, n, trap, rfl⟩ := h; exact .inr ⟨n, trap, rfl⟩

/-- What a step that answers `t` has done: a fetch that raised, or a fetched instruction's effect. -/
theorem step_effect {s t : State} (h : step s = .next t) :
    s.running = true ∧ ((∃ n trap, t = (s.advance n).raise trap) ∨
      ∃ i n, fetchInstr s = .ok (i, s.advance n) ∧ Effect i (s.advance n) t) := by
  unfold step at h
  split at h
  · cases h
  · next hrun =>
    obtain ⟨i, n, e⟩ | ⟨n, trap, e⟩ := fetchInstr_cases s <;> simp only [e] at h
    · exact ⟨hrun, .inr ⟨i, n, e, exec_effect h⟩⟩
    · cases h
      exact ⟨hrun, .inl ⟨n, trap, rfl⟩⟩

/-! ### What an effect leaves unchanged, field by field -/

section
variable {i : Instr} {s t : State}

/-- Memory changes only by a WMEM's store. -/
theorem Effect.mem_change (h : Effect i s t) :
    t.mem = s.mem ∨ ∃ x b addr v, i = .wmem x b ∧ resolve s x = .ok addr ∧ t.mem = s.mem.writeCell addr v := by
  cases h with
  | store addr v hx hb => exact .inr ⟨_, _, addr, v, rfl, hx, rfl⟩
  | _ => exact .inl (by simp)

/-- A register changes only as the destination. -/
theorem Effect.regs_change (h : Effect i s t) :
    t.regs = s.regs ∨ ∃ r v, destination i = some (.register r) ∧ t.regs = s.regs.set r v := by
  cases h with
  | write r v hd hp hn hv => exact .inr ⟨r, v, hd, rfl⟩
  | popWrite r v rest hs => exact .inr ⟨r, v, rfl, rfl⟩
  | inputWrite r ch rest hs => exact .inr ⟨r, _, rfl, rfl⟩
  | _ => exact .inl (by simp)

/-- The stack grows by one word, with room for it, or loses its top, or stays. -/
theorem Effect.stack_change (h : Effect i s t) :
    t.stack = s.stack ∨
    (((∃ b, i = .push b) ∨ (∃ x, i = .call x)) ∧ s.stackCapacity ≠ some s.stack.length ∧
      ∃ v, t.stack = v :: s.stack) ∨
    (((∃ a, i = .pop a) ∨ i = .ret) ∧ ∃ v, s.stack = v :: t.stack) := by
  cases h with
  | push v hc => exact .inr (.inl ⟨.inl ⟨_, rfl⟩, hc, v, rfl⟩)
  | call w hc => exact .inr (.inl ⟨.inr ⟨_, rfl⟩, hc, _, rfl⟩)
  | callFault trap hc => exact .inr (.inl ⟨.inr ⟨_, rfl⟩, hc, s.pcWord, by simp⟩)
  | popWrite r v rest hs => exact .inr (.inr ⟨.inl ⟨_, rfl⟩, v, hs⟩)
  | popFault v rest trap hs => exact .inr (.inr ⟨.inl ⟨_, rfl⟩, v, by simp [hs]⟩)
  | ret v rest hs => exact .inr (.inr ⟨.inr rfl, v, hs⟩)
  | _ => exact .inl (by simp)

/-- No instruction changes the stack's capacity. -/
theorem Effect.stackCapacity (h : Effect i s t) : t.stackCapacity = s.stackCapacity := by
  cases h <;> simp

/-- The output grows by one byte in OUTPUT and stays otherwise. -/
theorem Effect.output_change (h : Effect i s t) :
    t.output = s.output ∨ (∃ b, i = .output b) ∧ ∃ ch, t.output = s.output ++ [ch] := by
  cases h with
  | output ch => exact .inr ⟨⟨_, rfl⟩, ch, rfl⟩
  | _ => exact .inl (by simp)

/-- The input loses its first byte in INPUT, whether that then faults or not, and stays otherwise. -/
theorem Effect.input_change (h : Effect i s t) :
    t.input = s.input ∨ (∃ a, i = .input a) ∧ ∃ ch, s.input = ch :: t.input := by
  cases h with
  | inputWrite r ch rest hs => exact .inr ⟨⟨_, rfl⟩, ch, hs⟩
  | inputFault ch rest trap hs => exact .inr ⟨⟨_, rfl⟩, ch, by simp [hs]⟩
  | _ => exact .inl (by simp)

/-- The counter moves only in a redirect or a held INPUT. -/
theorem Effect.pc_change (h : Effect i s t) :
    t.pc = s.pc ∨ ((∃ x, i = .jmp x) ∨ (∃ b x, i = .jt b x) ∨ (∃ b x, i = .jf b x)) ∨ (∃ x, i = .call x) ∨ i = .ret ∨
      ((∃ a, i = .input a) ∧ s.input = []) := by
  cases h with
  | jump w hi => exact .inr (.inl hi)
  | call w hc => exact .inr (.inr (.inl ⟨_, rfl⟩))
  | ret v rest hs => exact .inr (.inr (.inr (.inl rfl)))
  | inputHeld hs => exact .inr (.inr (.inr (.inr ⟨⟨_, rfl⟩, hs⟩)))
  | _ => exact .inl (by simp)

/-- The status outputs stay as they are, or HALT sets them, or a raise does, which keeps the counter. -/
theorem Effect.status_change (h : Effect i s t) :
    (t.running = s.running ∧ t.fault = s.fault ∧ t.faultInfo = s.faultInfo ∧ t.haltNotice = s.haltNotice) ∨
    (i = .halt ∧ t = s.halt) ∨
    (i ≠ .halt ∧ t.running = false ∧ t.fault ≠ none ∧ t.haltNotice = s.haltNotice ∧ t.pc = s.pc) := by
  cases h with
  | halt => exact .inr (.inl ⟨rfl, rfl⟩)
  | fault trap hi => exact .inr (.inr ⟨hi.1, by simp⟩)
  | popFault v rest trap hs => exact .inr (.inr (by simp))
  | callFault trap hc => exact .inr (.inr (by simp))
  | inputFault ch rest trap hs => exact .inr (.inr (by simp))
  | _ => exact .inl (by simp)

/-! ### The invariant, part by part -/

/-- Stores keep memory canonical. -/
theorem Effect.mem_wf (h : Effect i s t) (hs : s.mem.wf = true) : t.mem.wf = true := by
  obtain e | ⟨x, b, addr, v, -, -, e⟩ := h.mem_change <;> rw [e]
  · exact hs
  · exact Memory.wf_writeCell addr v hs

/-- A push that has happened was not on a full stack, so the stack still fits (10_state.md R21). -/
theorem Effect.stackFits (h : Effect i s t) (hs : s.stackFits) : t.stackFits := by
  intro n hn
  rw [h.stackCapacity] at hn
  have hfit := hs n hn
  obtain e | ⟨-, hc, v, e⟩ | ⟨-, v, e⟩ := h.stack_change
  · rwa [e]
  · have hne : n ≠ s.stack.length := by rintro rfl; exact hc hn
    rw [e, List.length_cons]
    omega
  · rw [e, List.length_cons] at hfit
    omega

/-- A raise on a running machine that has raised no notice ends in the latched case of R139. -/
theorem statusOk_of_fault (hr : t.running = false) (hf : t.fault ≠ none) (hn : t.haltNotice = false) :
    t.statusOk := by
  simp [State.statusOk, hr, hf, hn]

/-- HALT on a running machine with nothing latched ends in the final case of R139. -/
theorem statusOk_halt (hrun : s.running = true) (hs : s.statusOk) : s.halt.statusOk := by
  obtain ⟨hclear, -, hinfo⟩ := hs
  simpa [State.statusOk, (hclear hrun).1] using hinfo

/-- The status outputs stay in one of the cases a run can be in. -/
theorem Effect.statusOk (h : Effect i s t) (hrun : s.running = true) (hs : s.statusOk) : t.statusOk := by
  obtain ⟨er, ef, ei, en⟩ | ⟨-, rfl⟩ | ⟨-, hr, hf, hn, -⟩ := h.status_change
  · simpa only [State.statusOk, er, ef, ei, en] using hs
  · exact statusOk_halt hrun hs
  · exact statusOk_of_fault hr hf (hn.trans (hs.1 hrun).2)

/-- An effect on a running machine keeps the whole invariant. -/
theorem Effect.inv (h : Effect i s t) (hrun : s.running = true) (hs : s.inv) : t.inv :=
  let ⟨hwf, hfit, hok⟩ := hs
  ⟨h.mem_wf hwf, h.stackFits hfit, h.statusOk hrun hok⟩

/-- A raise on a running machine keeps the invariant. -/
theorem State.inv_raise (trap : Trap) (hrun : s.running = true) (hs : s.inv) : (s.raise trap).inv := by
  obtain ⟨hwf, hfit, hclear, -⟩ := hs
  refine ⟨by simpa using hwf, by simpa [State.stackFits] using hfit, ?_⟩
  exact statusOk_of_fault (by simp) (by simp) (by simpa using (hclear hrun).2)

end

/-- Settles O54: the fetch phase only moves the counter, which the invariant does not name; then a raise or an
instruction's effect keeps each of its three parts. -/
theorem invKeptByStep : Obligations.InvKeptByStep := by
  intro s t hs h
  obtain ⟨hrun, ⟨n, trap, rfl⟩ | ⟨i, n, -, e⟩⟩ := step_effect h
  · exact State.inv_raise (s := s.advance n) trap hrun hs
  · exact e.inv hrun hs

/-! ### A machine between longer streams -/

/-- The same machine with `earlier` in front of its output and `later` behind its input. -/
def State.withStreams (earlier later : List Byte) (s : State) : State :=
  { s with output := earlier ++ s.output, input := s.input ++ later }

/-- The second machine is the first with those bytes around its streams. -/
abbrev LongerStreams (earlier later : List Byte) (s s' : State) : Prop := s' = s.withStreams earlier later

/-- The same answer about a machine with `earlier` in front of its output and `later` behind its input. -/
def Result.withStreams (earlier later : List Byte) : Result → Result
  | .next t => .next (t.withStreams earlier later)
  | .fault r => .fault r
  | .refused r => .refused r

section
variable {earlier later : List Byte} {s : State}

@[simp] theorem State.withStreams_mem : (s.withStreams earlier later).mem = s.mem := rfl
@[simp] theorem State.withStreams_pc : (s.withStreams earlier later).pc = s.pc := rfl
@[simp] theorem State.withStreams_pcWord : (s.withStreams earlier later).pcWord = s.pcWord := rfl
@[simp] theorem State.withStreams_running : (s.withStreams earlier later).running = s.running := rfl

/-- With nothing behind the input, only the output differs. -/
theorem State.withStreams_nil (earlier : List Byte) (s : State) :
    s.withStreams earlier [] = { s with output := earlier ++ s.output } := by
  simp [State.withStreams]

theorem State.raise_withStreams (trap : Trap) :
    (s.withStreams earlier later).raise trap = (s.raise trap).withStreams earlier later := by
  obtain ⟨mem, regs, stack, pc, running, fault, info, notice, output, input, capacity⟩ := s
  cases fault <;> rfl

theorem State.consoleWrite_withStreams (b : Byte) :
    (s.withStreams earlier later).consoleWrite b = (s.consoleWrite b).withStreams earlier later := by
  simp [State.withStreams, State.consoleWrite]

theorem State.push_withStreams (v : Word) :
    (s.withStreams earlier later).push v = (s.push v).map (State.withStreams earlier later) := by
  obtain ⟨hc, e⟩ | ⟨hc, e⟩ := s.push_cases v <;> rw [e]
  · exact if_pos hc
  · exact if_neg hc

theorem State.pop_withStreams :
    (s.withStreams earlier later).pop = s.pop.map (Prod.map id (State.withStreams earlier later)) := by
  obtain ⟨hs, e⟩ | ⟨v, rest, hs, e⟩ := s.pop_cases <;> rw [e]
  · simp [State.pop, State.withStreams, hs, Except.map]
  · simp [State.pop, State.withStreams, hs, Except.map]

theorem State.consoleRead_withStreams (hin : s.input = [] → later = []) :
    (s.withStreams earlier later).consoleRead =
      s.consoleRead.map (Prod.map id (State.withStreams earlier later)) := by
  obtain ⟨hs, e⟩ | ⟨ch, rest, hs, e⟩ := s.consoleRead_cases <;> rw [e]
  · simp [State.consoleRead, State.withStreams, hs, hin hs]
  · simp [State.consoleRead, State.withStreams, hs]

theorem resolve_withStreams (o : Operand) : resolve (s.withStreams earlier later) o = resolve s o :=
  resolve_congr rfl o

theorem raised_withStreams (trap : Trap) :
    raised (s.withStreams earlier later) trap = Result.withStreams earlier later (raised s trap) :=
  congrArg Host.Outcome.next (State.raise_withStreams trap)

theorem withValue_withStreams {o : Operand} {k k' : Word → Result}
    (hk : ∀ v, k' v = Result.withStreams earlier later (k v)) :
    withValue (s.withStreams earlier later) o k' = Result.withStreams earlier later (withValue s o k) := by
  unfold withValue
  rw [resolve_withStreams]
  cases resolve s o with
  | error trap => exact raised_withStreams trap
  | ok v => exact hk v

theorem withValues_withStreams {o p : Operand} {k k' : Word → Word → Result}
    (hk : ∀ v w, k' v w = Result.withStreams earlier later (k v w)) :
    withValues (s.withStreams earlier later) o p k' = Result.withStreams earlier later (withValues s o p k) :=
  withValue_withStreams fun v => withValue_withStreams fun w => hk v w

theorem writeDest_withStreams (a : Operand) (v : Word) :
    writeDest (s.withStreams earlier later) a v = Result.withStreams earlier later (writeDest s a v) := by
  cases a with
  | register r => rfl
  | literal n => exact raised_withStreams _
  | invalid code => exact raised_withStreams _

theorem execCall_withStreams (x : Operand) :
    execCall x (s.withStreams earlier later) = Result.withStreams earlier later (execCall x s) := by
  simp only [execCall, State.withStreams_pc, State.withStreams_pcWord, State.push_withStreams]
  split
  · exact raised_withStreams _
  · cases s.push s.pcWord with
    | error trap => exact raised_withStreams trap
    | ok u => exact withValue_withStreams fun w => rfl

/-- No instruction reads the output, and INPUT alone reads the input: what stands beyond its first byte, where it has
one, makes no difference. -/
theorem exec_withStreams (i : Instr) (hin : (∃ a, i = .input a) → s.input = [] → later = []) :
    exec i (s.withStreams earlier later) = Result.withStreams earlier later (exec i s) := by
  cases i with
  | halt => rfl
  | noop => rfl
  | jmp x => rfl
  | set a b => exact withValue_withStreams fun v => writeDest_withStreams a v
  | not a b => exact withValue_withStreams fun v => writeDest_withStreams a _
  | rmem a x => exact withValue_withStreams fun v => writeDest_withStreams a _
  | eq a b c => exact withValues_withStreams fun v w => writeDest_withStreams a _
  | gt a b c => exact withValues_withStreams fun v w => writeDest_withStreams a _
  | add a b c => exact withValues_withStreams fun v w => writeDest_withStreams a _
  | mult a b c => exact withValues_withStreams fun v w => writeDest_withStreams a _
  | and a b c => exact withValues_withStreams fun v w => writeDest_withStreams a _
  | or a b c => exact withValues_withStreams fun v w => writeDest_withStreams a _
  | mod a b c =>
    refine withValues_withStreams fun v w => ?_
    split
    · exact raised_withStreams _
    · exact writeDest_withStreams a _
  | wmem x b => exact withValues_withStreams fun v w => rfl
  | jt b x =>
    refine withValue_withStreams fun v => ?_
    split
    · rfl
    · exact withValue_withStreams fun w => rfl
  | jf b x =>
    refine withValue_withStreams fun v => ?_
    split
    · exact withValue_withStreams fun w => rfl
    · rfl
  | output b => exact withValue_withStreams fun v => congrArg Host.Outcome.next (State.consoleWrite_withStreams _)
  | push b =>
    refine withValue_withStreams fun v => ?_
    rw [State.push_withStreams]
    cases s.push v with
    | error trap => exact raised_withStreams trap
    | ok u => rfl
  | pop a =>
    simp only [exec, execPop, State.pop_withStreams]
    cases s.pop with
    | error trap => exact raised_withStreams trap
    | ok p => exact writeDest_withStreams a p.1
  | ret =>
    simp only [exec, execRet, State.pop_withStreams]
    cases s.pop with
    | error trap => exact raised_withStreams trap
    | ok p => rfl
  | call x => exact execCall_withStreams x
  | input a =>
    simp only [exec, execInput, State.consoleRead_withStreams (hin ⟨a, rfl⟩)]
    cases s.consoleRead with
    | none => rfl
    | some p => exact writeDest_withStreams a _

theorem fetch_withStreams : Matched (LongerStreams earlier later) (LongerStreams earlier later) (fetch s)
    (fetch (s.withStreams earlier later)) := by
  obtain ⟨h, e⟩ | ⟨h, e⟩ := fetch_cases s
  · rw [e, fetch_ok (s := s.withStreams earlier later) h]
    exact .ok _ rfl
  · rw [e, fetch_top (s := s.withStreams earlier later) h]
    exact .error (State.raise_withStreams _)

theorem fetchInstr_withStreams : Matched (LongerStreams earlier later) (LongerStreams earlier later) (fetchInstr s)
    (fetchInstr (s.withStreams earlier later)) := by
  refine decodeFrom_matched ?_ ?_ rfl
  · rintro u _ rfl
    exact fetch_withStreams
  · rintro op u _ rfl
    exact State.raise_withStreams _

/-- Unless the machine is held at an INPUT, longer streams make no difference to a step. -/
theorem step_withStreams (hin : s.held → later = []) :
    step (s.withStreams earlier later) = Result.withStreams earlier later (step s) := by
  unfold step
  rw [State.withStreams_running]
  split
  · rfl
  · next hrun =>
    have hfetch := fetchInstr_withStreams (s := s) (earlier := earlier) (later := later)
    generalize fetchInstr (s.withStreams earlier later) = p at hfetch ⊢
    obtain ⟨i, n, e⟩ | ⟨n, trap, e⟩ := fetchInstr_cases s <;> rw [e] at hfetch ⊢
    · cases hfetch with
      | ok _ h =>
        subst h
        exact exec_withStreams i fun ⟨a, ha⟩ hempty => hin ⟨hrun, hempty, a, s.advance n, ha ▸ e⟩
    · cases hfetch with
      | error h => subst h; rfl

/-- Settles O60: with nothing put behind the input, a held INPUT is held either way. -/
theorem outputIsNeverRead : Obligations.OutputIsNeverRead := by
  intro s t earlier h
  rw [← State.withStreams_nil, ← State.withStreams_nil, step_withStreams (fun _ => rfl), h]
  rfl

end

/-! ### Canonical memories -/

/-- What the canonical form asks of a memory with a first byte. -/
theorem Memory.wfFrom_cons_iff {lo k : Nat} {b : Byte} {m : Memory} :
    Memory.wfFrom lo ((k, b) :: m) = true ↔
      lo ≤ k ∧ k < 2 * Config.memCells ∧ b ≠ unlistedByte ∧ Memory.wfFrom (k + 1) m = true := by
  simp only [Memory.wfFrom, Bool.and_eq_true, decide_eq_true_eq, and_assoc]

/-- Beyond the address space a canonical memory lists nothing. -/
theorem Memory.readByte_beyond {lo a : Nat} {m : Memory} (h : Memory.wfFrom lo m = true)
    (ha : 2 * Config.memCells ≤ a) : m.readByte a = unlistedByte := by
  induction m generalizing lo with
  | nil => rfl
  | cons c m ih =>
    obtain ⟨-, hk, -, hm⟩ := Memory.wfFrom_cons_iff.mp h
    rw [Memory.readByte, if_neg (by omega)]
    exact ih hm

/-- Where the first canonical memory lists its first byte, the second, reading alike, has begun too. -/
theorem Memory.head_le_of_readByte_eq {lo lo' k k' : Nat} {b b' : Byte} {m m' : Memory}
    (h : Memory.wfFrom lo ((k, b) :: m) = true) (h' : Memory.wfFrom lo' ((k', b') :: m') = true)
    (heq : ∀ a, Memory.readByte ((k, b) :: m) a = Memory.readByte ((k', b') :: m') a) : k' ≤ k := by
  obtain ⟨-, -, hb, -⟩ := Memory.wfFrom_cons_iff.mp h
  obtain ⟨-, hk', hb', hm'⟩ := Memory.wfFrom_cons_iff.mp h'
  by_contra hlt
  have hlow : Memory.wfFrom k' ((k', b') :: m') = true := Memory.wfFrom_cons_iff.mpr ⟨Nat.le_refl k', hk', hb', hm'⟩
  have := heq k
  rw [Memory.readByte_below hlow (by omega), Memory.readByte, if_pos rfl] at this
  exact hb this

/-- Canonical memories with the same bytes are the same list. -/
theorem Memory.eq_of_readByte_eq {lo : Nat} {m m' : Memory} (h : Memory.wfFrom lo m = true)
    (h' : Memory.wfFrom lo m' = true) (heq : ∀ a, m.readByte a = m'.readByte a) : m = m' := by
  induction m generalizing lo m' with
  | nil =>
    cases m' with
    | nil => rfl
    | cons c m' =>
      obtain ⟨-, -, hb, -⟩ := Memory.wfFrom_cons_iff.mp h'
      exact absurd (by simpa [Memory.readByte] using (heq c.1).symm) hb
  | cons c m ih =>
    obtain ⟨k, b⟩ := c
    obtain ⟨-, -, hb, hm⟩ := Memory.wfFrom_cons_iff.mp h
    cases m' with
    | nil => exact absurd (by simpa [Memory.readByte] using heq k) hb
    | cons c' m' =>
      obtain ⟨k', b'⟩ := c'
      obtain ⟨-, -, -, hm'⟩ := Memory.wfFrom_cons_iff.mp h'
      obtain rfl : k = k' := Nat.le_antisymm (Memory.head_le_of_readByte_eq h' h fun a => (heq a).symm)
        (Memory.head_le_of_readByte_eq h h' heq)
      obtain rfl : b = b' := by simpa [Memory.readByte] using heq k
      rw [ih hm hm' fun a => ?_]
      by_cases ha : k = a
      · rw [Memory.readByte_below hm (by omega), Memory.readByte_below hm' (by omega)]
      · simpa [Memory.readByte, ha] using heq a

/-- A word of two bytes as a number (20_memory.md R32). -/
theorem toNat_wordOfBytes (lo hi : Byte) : (wordOfBytes lo hi).toNat = lo.toNat + 256 * hi.toNat := by
  have := lo.isLt
  have := hi.isLt
  rw [wordOfBytes, BitVec.toNat_ofNat, Nat.mod_eq_of_lt (by omega)]

/-- A word determines its two bytes. -/
theorem wordOfBytes_inj {lo hi lo' hi' : Byte} (h : wordOfBytes lo hi = wordOfBytes lo' hi') :
    lo = lo' ∧ hi = hi' := by
  have hnat := congrArg BitVec.toNat h
  rw [toNat_wordOfBytes, toNat_wordOfBytes] at hnat
  have := lo.isLt
  have := lo'.isLt
  exact ⟨BitVec.eq_of_toNat_eq (by omega), BitVec.eq_of_toNat_eq (by omega)⟩

/-- A cell is its two bytes, for a cell number below 65536. -/
theorem Memory.readCell_ofNat (m : Memory) {n : Nat} (h : n < Config.memCells) :
    m.readCell (BitVec.ofNat 16 n) = wordOfBytes (m.readByte (2 * n)) (m.readByte (2 * n + 1)) := by
  rw [Memory.readCell, BitVec.toNat_ofNat, Nat.mod_eq_of_lt h]

/-- Memories with the same cells have the same bytes within the address space. -/
theorem Memory.readByte_eq_of_readCell_eq {m m' : Memory} (h : ∀ a : Word, m.readCell a = m'.readCell a) {k : Nat}
    (hk : k < 2 * Config.memCells) : m.readByte k = m'.readByte k := by
  have hcell := h (BitVec.ofNat 16 (k / 2))
  rw [Memory.readCell_ofNat m (by omega), Memory.readCell_ofNat m' (by omega)] at hcell
  obtain ⟨hlow, hhigh⟩ := wordOfBytes_inj hcell
  obtain hpar | hpar := Nat.mod_two_eq_zero_or_one k
  · rwa [show 2 * (k / 2) = k by omega] at hlow
  · rwa [show 2 * (k / 2) + 1 = k by omega] at hhigh

/-- Settles O13: the cells give the bytes within the address space, the canonical form those beyond it. -/
theorem canonicalMemoryIsUnique : Obligations.CanonicalMemoryIsUnique := by
  intro m m' h h' heq
  refine Memory.eq_of_readByte_eq h h' fun a => ?_
  by_cases ha : a < 2 * Config.memCells
  · exact Memory.readByte_eq_of_readCell_eq heq ha
  · rw [Memory.readByte_beyond h (by omega), Memory.readByte_beyond h' (by omega)]

/-! ### What the instructions leave unchanged -/

/-- Settles O43: memory changes only by a store, which leaves every byte outside its cell alone. -/
theorem memoryChangesOnlyByWmem : Obligations.MemoryChangesOnlyByWmem := by
  intro i s t h
  obtain e | ⟨x, b, addr, v, rfl, hx, e⟩ := (exec_effect h).mem_change <;> rw [e]
  · exact ⟨fun _ _ => rfl, fun _ _ _ _ _ _ _ _ => rfl⟩
  · refine ⟨fun hi => absurd rfl (hi x b), fun x' b' hi addr' hx' k hlow hhigh => ?_⟩
    obtain ⟨rfl, rfl⟩ := Instr.wmem.inj hi
    obtain rfl : addr = addr' := Except.ok.inj (hx.symm.trans hx')
    exact Memory.readByte_writeCell_other s.mem addr v hlow hhigh

/-- Settles O44: the two ways an effect can change the stack. -/
theorem stackChangesOnlyByStackInstrs : Obligations.StackChangesOnlyByStackInstrs := by
  intro i s t h hne
  obtain e | ⟨hi, -, hv⟩ | hpop := (exec_effect h).stack_change
  · exact absurd e hne
  · exact .inl ⟨hi, hv⟩
  · exact .inr hpop

/-- Settles O45: a write to the register the destination names leaves every other one as it was. -/
theorem registersChangeOnlyAsDestination : Obligations.RegistersChangeOnlyAsDestination := by
  intro i s t q h hne
  obtain e | ⟨r, v, hd, e⟩ := (exec_effect h).regs_change
  · exact absurd (by rw [e]) hne
  · obtain rfl | hq := eq_or_ne q r
    · exact hd
    · refine absurd ?_ hne
      have hsame := State.readReg_writeReg_other (s := s) v hq
      rw [e]
      exact hsame

/-- Settles O46: the one way an effect can change each stream. -/
theorem consoleChangesOnlyByConsoleInstrs : Obligations.ConsoleChangesOnlyByConsoleInstrs := by
  intro i s t h
  exact ⟨(exec_effect h).output_change.resolve_left, (exec_effect h).input_change.resolve_left⟩

/-- Settles O47: the ways an effect can move the counter. -/
theorem pcMovesOnlyByRedirects : Obligations.PcMovesOnlyByRedirects := by
  intro i s t h hne
  simpa only [or_assoc] using (exec_effect h).pc_change.resolve_left hne

/-- Settles O48: of the ways an effect can change the status outputs, one leaves the machine running. -/
theorem runEndsOnlyByHaltOrFault : Obligations.RunEndsOnlyByHaltOrFault := by
  intro i s t h hrun hend
  obtain ⟨er, -⟩ | ⟨hi, rfl⟩ | ⟨hi, -, hf, hn, hpc⟩ := (exec_effect h).status_change
  · rw [er, hrun] at hend
    cases hend
  · exact .inl ⟨hi, rfl, rfl⟩
  · exact .inr ⟨hi, hn, hf, hpc⟩

/-! ### Reset and launch -/

/-- The state in which a launch that is not refused begins stepping. -/
def launchState (image : List Byte) (start : Word) (input : List Byte) (capacity : Option Nat) : State :=
  { State.reset with
    mem := Memory.ofBytesFrom 0 image, input := input, stackCapacity := capacity }.setPc start

section
variable {image : List Byte} {start : Word} {input : List Byte} {capacity : Option Nat}

/-- A launch of whole words that fit is not refused. -/
theorem launch_ok (heven : image.length % 2 = 0) (hfit : image.length ≤ 131072) :
    launch image start input capacity = .ok (launchState image start input capacity) := by
  rw [launch, if_neg (by omega), if_neg (by simp only [Config.maxImageBytes]; omega), launchState]

/-- The byte at `j` of a launched machine's memory is the image's, and 0 beyond the image. -/
theorem launchState_readByte (j : Nat) :
    (launchState image start input capacity).mem.readByte j = image.getD j 0 := by
  have h := Memory.readByte_ofBytesFrom image 0 j
  rw [Nat.zero_add] at h
  exact h

/-- Every launch begins in the invariant. -/
theorem launchState_inv (hfit : image.length ≤ 131072) : (launchState image start input capacity).inv := by
  refine ⟨Memory.wf_ofBytesFrom hfit, fun n _ => Nat.zero_le n, fun _ => ⟨rfl, rfl⟩, fun h => ?_, fun _ => rfl⟩
  exact Bool.noConfusion h

end

/-- Settles O55: the reset state is the launch of the empty image. -/
theorem invAtReset : Obligations.InvAtReset :=
  launchState_inv (image := []) (start := 0) (input := []) (capacity := none) (Nat.zero_le _)

/-- Settles O56: a launch that fits is not refused, and its memory reads as the image, byte by byte and so cell by
cell; every other field is a reset value by definition. -/
theorem launchGivesResetState : Obligations.LaunchGivesResetState := by
  intro image start input capacity heven hfit
  refine ⟨_, launch_ok heven hfit, launchState_inv hfit, fun i hi => ?_, fun a ha => ?_, fun r => ?_,
    rfl, rfl, rfl, rfl, rfl, rfl, rfl, rfl⟩
  · have hcell : i < Config.memCells := by simp only [Config.memCells]; omega
    rw [Memory.readCell_ofNat _ hcell, toNat_wordOfBytes, launchState_readByte, launchState_readByte]
  · rw [Memory.readCell, launchState_readByte, launchState_readByte, List.getD_eq_default _ _ ha,
      List.getD_eq_default _ _ (by omega)]
    rfl
  · exact Vector.getElem_replicate r.isLt

end Sys2Proof.Machine
end

section
/-! PROOFS. The statements of 20_memory.md: cells written and read back, and instructions read from image bytes. -/

namespace Sys2Proof

/-! ### Reading back an encoding -/

/-- The code of a well-formed operand reads as that operand (30_encoding.md R49). -/
theorem Operand.ofWord_code {o : Operand} (h : o.wellFormed = true) : Operand.ofWord o.code = o := by
  cases o with
  | literal v =>
    have hv : (Operand.literal v).code.toNat ≤ 32767 := by
      have := v.isLt
      rw [Operand.code, BitVec.toNat_setWidth]
      omega
    obtain ⟨-, e⟩ | ⟨hlo, -⟩ | ⟨hlo, -⟩ := Operand.ofWord_cases (Operand.literal v).code
    · rw [e, Operand.code, BitVec.setWidth_setWidth_of_le v (by omega), BitVec.setWidth_eq]
    · omega
    · omega
  | register r => revert r; decide
  | invalid code =>
    have hcode : 32776 ≤ code.toNat := of_decide_eq_true h
    obtain ⟨hhi, -⟩ | ⟨-, hhi, -⟩ | ⟨-, e⟩ := Operand.ofWord_cases code
    · omega
    · omega
    · exact e

/-- Any words may follow those of an instruction (30_encoding.md R47). -/
theorem decode_encode_append {i : Instr} (h : i.wellFormed = true) (rest : List Word) :
    decode (encode i ++ rest) = .ok (i, rest) := by
  cases i with
  | halt | ret | noop | jmp => rfl
  | push a | pop a | call a | output a | input a =>
    have ha : Operand.ofWord a.code = a := Operand.ofWord_code h
    simp [decode, decodeFrom, encode, operands1, takeWord, ha]
  | set a b | jt a b | jf a b | not a b | rmem a b | wmem a b =>
    obtain ⟨ha, hb⟩ := (Bool.and_eq_true _ _).mp h
    simp [decode, decodeFrom, encode, operands1, operands2, takeWord, Operand.ofWord_code, ha, hb]
  | eq a b c | gt a b c | add a b c | mult a b c | mod a b c | and a b c | or a b c =>
    obtain ⟨hab, hc⟩ := (Bool.and_eq_true _ _).mp h
    obtain ⟨ha, hb⟩ := (Bool.and_eq_true _ _).mp hab
    simp [decode, decodeFrom, encode, operands1, operands2, operands3, takeWord, Operand.ofWord_code, ha, hb, hc]

/-! ### Image bytes as a source of words -/

/-- The bytes are those of the words, with `bs` after them. -/
def BytesOf (bs : List Byte) (ws : List Word) (bytes : List Byte) : Prop := bytes = bytesOfWords ws ++ bs

/-- Reading bytes gives the words they were written from, low byte first (20_memory.md R32). -/
theorem takeBytes_follows_takeWord (bs : List Byte) : Follows takeWord takeBytes (BytesOf bs) := by
  rintro (_ | ⟨v, vs⟩) _ _ _ rfl h
  · cases h
  · cases h
    exact ⟨bytesOfWords vs ++ bs, by simp [bytesOfWords, takeBytes], rfl⟩

/-- What the words decode to with nothing left over, their bytes decode to before any others. -/
theorem decodeBytes_bytesOfWords {ws ws' : List Word} {i : Instr} (h : decode ws = .ok (i, ws')) (bs : List Byte) :
    decodeBytes (bytesOfWords ws ++ bs) = .ok (i, bytesOfWords ws' ++ bs) := by
  obtain ⟨_, e, rfl⟩ := decodeFrom_follows (takeBytes_follows_takeWord bs) _ (fun op _ => .invalidOpcode op) rfl h
  exact e

/-- Settles O3: the bytes decode as the words do, and the words decode to the instruction. -/
theorem imageBytesDecode : Obligations.ImageBytesDecode := by
  intro i bs h
  have hwords : decode (encode i) = .ok (i, []) := by simpa using decode_encode_append h []
  exact decodeBytes_bytesOfWords hwords bs

/-! ### Cells -/

/-- Settles O12: the laws of a cell write, the canonical form needed only where the cell itself is read back. -/
theorem cellWriteThenRead : Obligations.CellWriteThenRead := fun m addr v =>
  ⟨fun h => ⟨Machine.Memory.readCell_writeCell_same h addr v, Machine.Memory.wf_writeCell addr v h⟩,
    fun _ hx => Machine.Memory.readCell_writeCell_other m v hx,
    fun _ hlow hhigh => Machine.Memory.readByte_writeCell_other m addr v hlow hhigh⟩

end Sys2Proof
end

section
/-! PROOFS. The statements of 30_encoding.md: the round trip between instructions and their words, and which opcode words
select an instruction. -/

namespace Sys2Proof

/-! ### From an instruction to its words and back -/

/-- Settles O1: the opcode word selects the instruction's arm, and each operand word reads as its operand. -/
theorem decodeOfEncode : Obligations.DecodeOfEncode := fun _ rest h => decode_encode_append h rest

/-! ### Operand words -/

/-- Sorting a word by its class drops no bit (30_encoding.md R49). -/
@[simp] theorem Operand.code_ofWord (w : Word) : (Operand.ofWord w).code = w := by
  apply BitVec.eq_of_toNat_eq
  obtain ⟨h, e⟩ | ⟨hlo, hhi, e⟩ | ⟨-, e⟩ := Operand.ofWord_cases w <;> rw [e, Operand.code]
  · simp only [BitVec.toNat_setWidth]
    omega
  · simp only [BitVec.toNat_ofNat, Fin.val_ofNat, Config.regBase]
    omega

@[simp] theorem Operand.wellFormed_ofWord (w : Word) : (Operand.ofWord w).wellFormed = true := by
  obtain ⟨-, e⟩ | ⟨-, -, e⟩ | ⟨h, e⟩ := Operand.ofWord_cases w <;> rw [e]
  · rfl
  · rfl
  · exact decide_eq_true h

/-! ### What the decoder does after the opcode word -/

/-- The words `ws` are those of the well-formed instruction `i` (30_encoding.md R47). -/
def SpelledBy (i : Instr) (ws : List Word) : Prop := i.wellFormed = true ∧ encode i = ws

/-- The answers of the decoder that has taken the opcode word `op` and stands at the source `s`: it refuses the word
(R55), or it takes the operand words of the one instruction that the word selects (R53). -/
inductive AfterOpcode {σ ε : Type} (next : σ → Except ε (Word × σ)) (bad : Word → σ → ε) (op : Word) (s : σ) :
    Except ε (Instr × σ) → Prop where
  | invalidOpcode (hop : 22 ≤ op.toNat) : AfterOpcode next bad op s (.error (bad op s))
  | noOperand (i : Instr) (hop : op.toNat < 22) (hi : SpelledBy i [op]) : AfterOpcode next bad op s (.ok (i, s))
  | oneOperand (mk : Word → Instr) (hop : op.toNat < 22) (hmk : ∀ a, SpelledBy (mk a) [op, a]) :
      AfterOpcode next bad op s (operands1 next mk s)
  | twoOperands (mk : Word → Word → Instr) (hop : op.toNat < 22) (hmk : ∀ a b, SpelledBy (mk a b) [op, a, b]) :
      AfterOpcode next bad op s (operands2 next mk s)
  | threeOperands (mk : Word → Word → Word → Instr) (hop : op.toNat < 22)
      (hmk : ∀ a b c, SpelledBy (mk a b c) [op, a, b, c]) : AfterOpcode next bad op s (operands3 next mk s)

section
variable {σ ε : Type} {next : σ → Except ε (Word × σ)} {s s' : σ} {op : Word}

/-- The opcode map, row by row (R53, R54): each row's instruction is spelled by the words taken for it. -/
theorem decodeFrom_afterOpcode (hn : next s = .ok (op, s')) (bad : Word → σ → ε) :
    AfterOpcode next bad op s' (decodeFrom next bad s) := by
  simp only [decodeFrom, hn]
  split
  case h_23 =>
    simp only [imp_false] at *
    exact .invalidOpcode (by omega)
  all_goals obtain ⟨-, rfl⟩ := BitVec.toNat_eq_nat.mp ‹op.toNat = _›
  case h_1 | h_19 | h_22 => exact .noOperand _ (by decide) ⟨rfl, rfl⟩
  case h_3 | h_4 | h_7 | h_18 | h_20 | h_21 =>
    exact .oneOperand _ (by decide) fun a => by simp [SpelledBy, Instr.wellFormed, encode]
  case h_2 | h_8 | h_9 | h_15 | h_16 | h_17 =>
    exact .twoOperands _ (by decide) fun a b => by simp [SpelledBy, Instr.wellFormed, encode]
  case h_5 | h_6 | h_10 | h_11 | h_12 | h_13 | h_14 =>
    exact .threeOperands _ (by decide) fun a b c => by simp [SpelledBy, Instr.wellFormed, encode]

theorem decode_cons_afterOpcode (op : Word) (ws : List Word) :
    AfterOpcode takeWord (fun op _ => .invalidOpcode op) op ws (decode (op :: ws)) :=
  decodeFrom_afterOpcode rfl _

/-- An opcode word of 22 or more is refused, with no operand word taken (R55). -/
theorem decodeFrom_invalidOpcode (hn : next s = .ok (op, s')) (bad : Word → σ → ε) (hop : 22 ≤ op.toNat) :
    decodeFrom next bad s = .error (bad op s') := by
  have h := decodeFrom_afterOpcode hn bad
  generalize decodeFrom next bad s = p at h ⊢
  cases h with
  | invalidOpcode => rfl
  | noOperand _ hlt | oneOperand _ hlt | twoOperands _ hlt | threeOperands _ hlt => omega

end

/-! ### Operand words taken from a list -/

section
variable {ws rest : List Word} {i : Instr}

theorem takeWord_eq_ok {w : Word} (h : takeWord ws = .ok (w, rest)) : ws = w :: rest := by
  cases ws with
  | nil => cases h
  | cons v vs => cases h; rfl

theorem operands1_takeWord {mk : Word → Instr} (h : operands1 takeWord mk ws = .ok (i, rest)) :
    ∃ a, i = mk a ∧ ws = a :: rest := by
  unfold operands1 at h
  split at h
  · cases h
  · next hn =>
    cases h
    exact ⟨_, rfl, takeWord_eq_ok hn⟩

theorem operands2_takeWord {mk : Word → Word → Instr} (h : operands2 takeWord mk ws = .ok (i, rest)) :
    ∃ a b, i = mk a b ∧ ws = a :: b :: rest := by
  unfold operands2 at h
  split at h
  · cases h
  · next hn =>
    obtain ⟨b, rfl, rfl⟩ := operands1_takeWord h
    exact ⟨_, b, rfl, takeWord_eq_ok hn⟩

theorem operands3_takeWord {mk : Word → Word → Word → Instr} (h : operands3 takeWord mk ws = .ok (i, rest)) :
    ∃ a b c, i = mk a b c ∧ ws = a :: b :: c :: rest := by
  unfold operands3 at h
  split at h
  · cases h
  · next hn =>
    obtain ⟨b, c, rfl, rfl⟩ := operands2_takeWord h
    exact ⟨_, b, c, rfl, takeWord_eq_ok hn⟩

/-- The words taken are those of the instruction read. -/
theorem spelledBy_of_decode (h : decode ws = .ok (i, rest)) : ∃ taken, SpelledBy i taken ∧ ws = taken ++ rest := by
  cases ws with
  | nil => cases h
  | cons op vs =>
    have hop := decode_cons_afterOpcode op vs
    generalize decode (op :: vs) = p at h hop
    cases hop with
    | invalidOpcode => cases h
    | noOperand _ _ hi =>
      cases h
      exact ⟨[op], hi, rfl⟩
    | oneOperand _ _ hmk =>
      obtain ⟨a, rfl, rfl⟩ := operands1_takeWord h
      exact ⟨[op, a], hmk a, rfl⟩
    | twoOperands _ _ hmk =>
      obtain ⟨a, b, rfl, rfl⟩ := operands2_takeWord h
      exact ⟨[op, a, b], hmk a b, rfl⟩
    | threeOperands _ _ hmk =>
      obtain ⟨a, b, c, rfl, rfl⟩ := operands3_takeWord h
      exact ⟨[op, a, b, c], hmk a b c, rfl⟩

end

/-- Settles O2: the words taken spell the instruction. -/
theorem encodeOfDecode : Obligations.EncodeOfDecode := by
  intro ws rest i h
  obtain ⟨taken, ⟨hwf, rfl⟩, rfl⟩ := spelledBy_of_decode h
  exact ⟨hwf, rfl⟩

/-- Settles O5: a selected instruction takes at most three operand words. -/
theorem opcodeRange : Obligations.OpcodeRange := by
  refine fun op a b c ws => ⟨fun hop => decodeFrom_invalidOpcode rfl _ hop, fun hlt => ?_⟩
  have h := decode_cons_afterOpcode op (a :: b :: c :: ws)
  generalize decode (op :: a :: b :: c :: ws) = p at h ⊢
  cases h with
  | invalidOpcode hop => omega
  | noOperand i => exact ⟨i, a :: b :: c :: ws, rfl⟩
  | oneOperand mk => exact ⟨mk a, b :: c :: ws, rfl⟩
  | twoOperands mk => exact ⟨mk a b, c :: ws, rfl⟩
  | threeOperands mk => exact ⟨mk a b c, ws, rfl⟩

/-- Settles O4, each reading computed from the opcode map. -/
theorem sampleWordsDecode : Obligations.SampleWordsDecode := ⟨rfl, rfl, rfl, rfl, rfl, rfl, rfl, rfl⟩

end Sys2Proof

namespace Sys2Proof.Machine

/-! ### An opcode word that selects no instruction -/

variable {s : State}

/-- A fetch gives the word that stands at the counter. -/
theorem fetch_of_codeAt {w : Word} {ws : List Word} (h : codeAt s (w :: ws)) : fetch s = .ok (w, s.advance 1) := by
  obtain ⟨hroom, hcells⟩ := h
  have hw : s.mem.readCell s.pcWord = w := hcells 0 (by simp)
  rw [fetch_ok (by simp only [List.length_cons] at hroom; omega), hw]

/-- A fetch phase that raises is the whole step (40_step_and_resolver.md R63). -/
theorem step_of_fetchInstr_error {t : State} (hrun : s.running = true) (h : fetchInstr s = .error t) :
    step s = .next t := by
  simp only [step, hrun, h]

/-- Settles O18: the opcode fetch moves the counter on by one, and the decoder refuses the word there. -/
theorem invalidOpcodeFaults : Obligations.InvalidOpcodeFaults := fun _ _ hrun hcode hop =>
  ⟨State.advance_pc_val hcode.1,
    step_of_fetchInstr_error hrun (decodeFrom_invalidOpcode (fetch_of_codeAt hcode) _ hop)⟩

end Sys2Proof.Machine
end

section
/-! PROOFS. The statements of 40_step_and_resolver.md: the classes of an operand code, the shared operations, the fetch
phase and the step. -/

namespace Sys2Proof

/-! ### Operand codes by class -/

/-- Settles O6: the two tests of the classification, each known to succeed or to fail in its range. -/
theorem classifyRanges : Obligations.ClassifyRanges := by
  refine fun code => ⟨fun hlit => if_pos hlit, fun ⟨hlo, hhi⟩ => ?_, fun hinv => ?_⟩
  · rw [classify, if_neg (by simp only [Config.litMax]; omega), if_pos hhi]
  · rw [classify, if_neg (by simp only [Config.litMax]; omega), if_neg (by simp only [Config.regLast]; omega)]

section
variable {code : Word}

theorem Operand.ofWord_literal (h : code.toNat ≤ 32767) : Operand.ofWord code = .literal (code.setWidth 15) := by
  obtain ⟨-, e⟩ | ⟨hlo, -⟩ | ⟨hlo, -⟩ := Operand.ofWord_cases code
  · exact e
  · omega
  · omega

theorem Operand.ofWord_register {r : Fin 8} (h : code.toNat = 32768 + r.val) : Operand.ofWord code = .register r := by
  obtain ⟨hhi, -⟩ | ⟨-, -, e⟩ | ⟨hlo, -⟩ := Operand.ofWord_cases code
  · omega
  · rw [e, h, Nat.add_sub_cancel_left, Fin.ofNat_val_eq_self]
  · omega

theorem Operand.ofWord_invalid (h : 32776 ≤ code.toNat) : Operand.ofWord code = .invalid code := by
  obtain ⟨hhi, -⟩ | ⟨-, hhi, -⟩ | ⟨-, e⟩ := Operand.ofWord_cases code
  · omega
  · omega
  · exact e

/-- A code outside the Register range names no register. -/
theorem Operand.ofWord_ne_register (h : code.toNat ≤ 32767 ∨ 32776 ≤ code.toNat) (r : Fin 8) :
    Operand.ofWord code ≠ .register r := by
  obtain hlit | hinv := h
  · simp [Operand.ofWord_literal hlit]
  · simp [Operand.ofWord_invalid hinv]

end

end Sys2Proof

namespace Sys2Proof.Machine

/-! ### The shared operations -/

/-- Settles O7: sorting a Literal code by its class drops no bit, so its value is the code. -/
theorem resolveByClass : Obligations.ResolveByClass := by
  refine fun s code => ⟨fun hlit => ?_, fun r hreg => ?_, fun hinv => ?_⟩
  · have hcode : (Operand.literal (code.setWidth 15)).code = code :=
      Operand.ofWord_literal hlit ▸ Operand.code_ofWord code
    rw [Operand.ofWord_literal hlit]
    exact congrArg Except.ok hcode
  · rw [Operand.ofWord_register hreg]
    rfl
  · rw [Operand.ofWord_invalid hinv]
    rfl

/-- Settles O8: a Register code is a register write, and every other code names no register. -/
theorem writeDestByClass : Obligations.WriteDestByClass := by
  refine fun s code v => ⟨fun r hreg => ?_, fun hother => ?_⟩
  · rw [Operand.ofWord_register hreg]
    exact ⟨s.writeReg r v, rfl, s.readReg_writeReg_same r v, fun _ hq => s.readReg_writeReg_other v hq, rfl⟩
  · obtain ⟨r, hr, -⟩ | ⟨-, e⟩ := writeDest_cases s (.ofWord code) v
    · exact absurd hr (Operand.ofWord_ne_register hother r)
    · rw [e, Operand.code_ofWord]
      rfl

/-- Settles O9: of the two answers of a push, the one whose condition holds. -/
theorem pushOnStack : Obligations.PushOnStack := by
  intro s v
  obtain ⟨hfull, e⟩ | ⟨hroom, e⟩ := s.push_cases v
  · exact ⟨fun _ => e, fun hroom => absurd hfull hroom⟩
  · exact ⟨fun hfull => absurd hfull hroom, fun _ => e⟩

/-- Settles O10: of the two answers of a pop, the one whose condition holds. -/
theorem popOffStack : Obligations.PopOffStack := by
  intro s
  obtain ⟨hempty, e⟩ | ⟨v, rest, hs, e⟩ := s.pop_cases
  · exact ⟨fun _ => e, fun v rest hs => absurd (hempty.symm.trans hs) (List.cons_ne_nil v rest).symm⟩
  · refine ⟨fun hempty => absurd (hs.symm.trans hempty) (List.cons_ne_nil v rest), fun v' rest' hs' => ?_⟩
    obtain ⟨rfl, rfl⟩ := List.cons.inj (hs.symm.trans hs')
    exact e

/-! ### The fetch phase -/

/-- Settles O14: of the two answers of a fetch, the one whose condition holds. -/
theorem fetchReadsAndAdvances : Obligations.FetchReadsAndAdvances := by
  refine fun s => ⟨fetch_top, fun hne => ?_⟩
  have hlt : s.pc.val < 65536 := by omega
  exact ⟨s.advance 1, fetch_ok hlt, State.advance_pc_val hlt, rfl⟩

section
variable {s : State}

/-- The words read from the counter on are what stands there. -/
theorem codeAt_wordsAtPc (s : State) (n : Nat) : codeAt s (s.wordsAtPc n) := by
  refine ⟨?_, fun j h => ?_⟩
  · simp only [State.wordsAtPc, List.length_map, List.length_range, Config.memCells]
    omega
  · simp only [State.wordsAtPc, List.getElem_map, List.getElem_range]

/-- Past the first words, the words after them stand at the counter. -/
theorem codeAt_advance {taken ws : List Word} (h : codeAt s (taken ++ ws)) : codeAt (s.advance taken.length) ws := by
  obtain ⟨hroom, hcells⟩ := h
  rw [List.length_append] at hroom
  have hpc : (s.advance taken.length).pc.val = s.pc.val + taken.length := State.advance_pc_val (by omega)
  refine ⟨by omega, fun j hj => ?_⟩
  have hcell := hcells (taken.length + j) (by simpa using hj)
  rw [List.getElem_append_right' taken hj]
  simpa only [hpc, State.advance_mem, Nat.add_assoc, Nat.add_comm j] using hcell

/-- The fetch phase that began at `s` before the words `all` stands at `t`, with the words `left` still to come. -/
def ReadUpTo (s : State) (all left : List Word) (t : State) : Prop :=
  ∃ taken, all = taken ++ left ∧ t = s.advance taken.length

/-- `Fetch()` gives, one by one, the words that stand at the counter. -/
theorem fetch_follows_takeWord {all : List Word} (h : codeAt s all) : Follows takeWord fetch (ReadUpTo s all) := by
  rintro ws _ w left ⟨taken, rfl, rfl⟩ hw
  obtain rfl := takeWord_eq_ok hw
  exact ⟨_, fetch_of_codeAt (codeAt_advance h), taken ++ [w], by simp, by simp [State.advance_advance]⟩

/-- What the words at the counter decode to, the fetch phase reads, and it moves past exactly the words of that
instruction (40_step_and_resolver.md R64, R66). -/
theorem fetchInstr_of_decode {ws rest : List Word} {i : Instr} (hcode : codeAt s ws)
    (hd : decode ws = .ok (i, rest)) : fetchInstr s = .ok (i, s.advance (encode i).length) := by
  obtain ⟨_, e, taken, htaken, rfl⟩ := decodeFrom_follows (fetch_follows_takeWord hcode) _
    (fun op t => t.raise ⟨.invalidOpcode, some op⟩) ⟨[], rfl, s.advance_zero.symm⟩ hd
  obtain ⟨-, hencode⟩ := encodeOfDecode ws rest i hd
  obtain rfl : taken = encode i := List.append_cancel_right (htaken.symm.trans hencode)
  exact e

/-! ### The step -/

/-- A fetch phase that gives an instruction is followed by its rule (40_step_and_resolver.md R63). -/
theorem step_of_fetchInstr_ok {i : Instr} {t : State} (hrun : s.running = true) (h : fetchInstr s = .ok (i, t)) :
    step s = exec i t := by
  simp only [step, hrun, h]

/-- A running machine has a next state: of the instruction it fetched, or of the raise in its fetch phase. -/
theorem step_next (hrun : s.running = true) : ∃ t, step s = .next t := by
  obtain ⟨i, n, e⟩ | ⟨n, trap, e⟩ := fetchInstr_cases s
  · rw [step_of_fetchInstr_ok hrun e]
    exact exec_next i _
  · exact ⟨_, step_of_fetchInstr_error hrun e⟩

end

/-- Settles O15: the fetch phase reads what the words decode to, and they end within the address space. -/
theorem stepRunsDecodedInstr : Obligations.StepRunsDecodedInstr := by
  intro s i rest hrun hd
  have hcode := codeAt_wordsAtPc s 4
  refine ⟨step_of_fetchInstr_ok hrun (fetchInstr_of_decode hcode hd), State.advance_pc_val ?_⟩
  have hroom := hcode.1
  rw [(encodeOfDecode _ rest i hd).2, List.length_append] at hroom
  omega

/-- Settles O16: the running flag is tested before anything is fetched. -/
theorem haltedHasNoStep : Obligations.HaltedHasNoStep := fun s h => by rw [step, h]

/-- Settles O17: a raise in the fetch phase leaves the output and the capacity as they were, and an instruction's effect
at most puts one byte behind the output. -/
theorem runningAlwaysSteps : Obligations.RunningAlwaysSteps := by
  intro s hrun
  obtain ⟨t, h⟩ := step_next hrun
  obtain ⟨-, ⟨n, trap, rfl⟩ | ⟨i, n, -, heffect⟩⟩ := step_effect h
  · exact ⟨_, h, by simp, [], by simp, by simp⟩
  · refine ⟨t, h, heffect.stackCapacity, ?_⟩
    obtain e | ⟨-, ch, e⟩ := heffect.output_change
    · exact ⟨[], by simp, by simpa using e⟩
    · exact ⟨[ch], by simp, e⟩

end Sys2Proof.Machine
end

section
/-! PROOFS. The statements of 41_system.md, and the fact that every instruction's statement uses: the words that spell an
instruction run as it. -/

namespace Sys2Proof.Machine

/-! ### The words of an instruction run as it -/

/-- At the counter of a running machine, the words that spell an instruction run as that instruction. -/
theorem runsAs_encode (i : Instr) : runsAs (encode i) i := by
  intro hwf s hrun hcode
  have hd : decode (encode i) = .ok (i, []) := by
    simpa only [List.append_nil] using decode_encode_append hwf []
  exact ⟨State.advance_pc_val hcode.1, step_of_fetchInstr_ok hrun (fetchInstr_of_decode hcode hd)⟩

/-! ### HALT and NOOP -/

/-- HALT ends the run from every state (41_system.md R77). -/
theorem exec_halt (s : State) : exec .halt s = .next s.halt := rfl

/-- NOOP leaves the state after the fetch phase as it is (41_system.md R78). -/
theorem exec_noop (s : State) : exec .noop s = .next s := rfl

/-- Settles O20: the word is the spelling of HALT, and its rule halts the machine. -/
theorem haltStops : Obligations.HaltStops := ⟨runsAs_encode .halt, exec_halt⟩

/-- Settles O21: the word is the spelling of NOOP, and its rule changes nothing. -/
theorem noopDoesNothing : Obligations.NoopDoesNothing := ⟨runsAs_encode .noop, exec_noop⟩

end Sys2Proof.Machine
end

section
/-! PROOFS. The statements of 42_move_stack.md: SET, PUSH and POP, with the clauses about sources and destinations that
other instructions share. -/

namespace Sys2Proof.Machine

variable {i : Instr} {s : State} {a b : Operand} {v : Word}

/-! ### Clauses that rules share -/

/-- A rule that begins by resolving `b` checks it before anything else (40_step_and_resolver.md R72). -/
theorem sourceChecked_of_withValue {k : Word → Result} (h : exec i s = withValue s b k) : sourceChecked i s b := by
  rintro code rfl
  exact h.trans (withValue_invalid s code k)

/-- A destination that is no register takes no value (40_step_and_resolver.md R69). -/
theorem writeDest_of_ne_register (h : ∀ r, a ≠ .register r) :
    writeDest s a v = raised s ⟨.invalidWriteTarget, some a.code⟩ := by
  obtain ⟨r, hr, -⟩ | ⟨-, e⟩ := writeDest_cases s a v
  · exact absurd hr (h r)
  · exact e

/-- A rule that comes to its last line with the state unchanged writes to its destination (R69). -/
theorem writesTo_of_writeDest (h : exec i s = writeDest s a v) : writesTo i s a v := by
  refine ⟨?_, fun hne => h.trans (writeDest_of_ne_register hne)⟩
  rintro r rfl
  exact h

/-! ### Words at the counter -/

/-- Where words stand at the counter, the first of them do. -/
theorem codeAt_prefix {taken ws : List Word} (h : codeAt s (taken ++ ws)) : codeAt s taken := by
  obtain ⟨hroom, hcells⟩ := h
  rw [List.length_append] at hroom
  refine ⟨by omega, fun j hj => ?_⟩
  rw [hcells j (by rw [List.length_append]; omega), List.getElem_append_left hj]

/-! ### SET -/

/-- Settles O22: SET resolves its source, and with the value known it is a write to the destination. -/
theorem setCopies : Obligations.SetCopies := fun a b =>
  ⟨runsAs_encode (.set a b), fun _ =>
    ⟨sourceChecked_of_withValue rfl, fun _ hb => writesTo_of_writeDest (withValue_ok hb _)⟩⟩

/-! ### PUSH -/

/-- With no room for its value PUSH overflows (42_move_stack.md R81). -/
theorem exec_push_of_full (hb : resolve s b = .ok v) (hfull : s.stackCapacity = some s.stack.length) :
    exec (.push b) s = raised s ⟨.stackOverflow, none⟩ := by
  rw [exec, execPush, withValue_ok hb, (pushOnStack s v).1 hfull]

/-- With room for its value PUSH puts it on top (R81). -/
theorem exec_push_of_room (hb : resolve s b = .ok v) (hroom : s.stackCapacity ≠ some s.stack.length) :
    exec (.push b) s = .next { s with stack := v :: s.stack } := by
  rw [exec, execPush, withValue_ok hb, (pushOnStack s v).2 hroom]

/-- Settles O23: PUSH resolves its source, and with the value known the stack's capacity decides. -/
theorem pushPushes : Obligations.PushPushes := fun b =>
  ⟨runsAs_encode (.push b), fun _ =>
    ⟨sourceChecked_of_withValue rfl, fun _ hb => ⟨exec_push_of_full hb, exec_push_of_room hb⟩⟩⟩

/-! ### POP -/

/-- POP on an empty stack underflows (42_move_stack.md R82). -/
theorem exec_pop_of_empty (a : Operand) (h : s.stack = []) :
    exec (.pop a) s = raised s ⟨.stackUnderflow, none⟩ := by
  rw [exec, execPop, (popOffStack s).1 h]

/-- POP takes the top off the stack, and only then looks at its destination (R82). -/
theorem exec_pop_of_cons (a : Operand) {rest : List Word} (h : s.stack = v :: rest) :
    exec (.pop a) s = writeDest { s with stack := rest } a v := by
  rw [exec, execPop, (popOffStack s).2 v rest h]

/-- Settles O24: with the top taken, POP is a write to the destination. -/
theorem popPops : Obligations.PopPops := by
  refine fun a => ⟨runsAs_encode (.pop a), fun s => ⟨exec_pop_of_empty a, fun v rest hs => ⟨?_, fun hne => ?_⟩⟩⟩
  · rintro r rfl
    exact exec_pop_of_cons _ hs
  · exact (exec_pop_of_cons a hs).trans (writeDest_of_ne_register hne)

/-! ### PUSH, then POP -/

/-- The step of a running machine at a PUSH with room for its value. -/
theorem step_push_of_room (hrun : s.running = true) (hwf : b.wellFormed = true) (hcode : codeAt s [2, b.code])
    (hb : resolve s b = .ok v) (hroom : s.stackCapacity ≠ some s.stack.length) :
    step s = .next { s.advance 2 with stack := v :: s.stack } := by
  obtain ⟨-, hstep⟩ := runsAs_encode (.push b) hwf s hrun hcode
  exact hstep.trans (exec_push_of_room ((resolve_congr rfl b).trans hb) hroom)

/-- The step of a running machine at a POP into a register with a word on the stack. -/
theorem step_pop_register {r : Fin 8} {rest : List Word} (hrun : s.running = true)
    (hcode : codeAt s [3, (Operand.register r).code]) (hs : s.stack = v :: rest) :
    step s = .next ({ s.advance 2 with stack := rest }.writeReg r v) := by
  obtain ⟨-, hstep⟩ := runsAs_encode (.pop (.register r)) rfl s hrun hcode
  exact hstep.trans (exec_pop_of_cons _ hs)

/-- Settles O50: PUSH leaves POP's words at the counter and the value on top of the old stack, and POP takes it. -/
theorem pushThenPopReproduces : Obligations.PushThenPopReproduces := by
  intro s b vb r hrun hwf hcode hb hroom
  have hpushCode : codeAt s [2, b.code] := codeAt_prefix hcode
  have hpopCode : codeAt (s.advance 2) [3, (Operand.register r).code] := codeAt_advance (taken := [2, b.code]) hcode
  have hpc : ((s.advance 2).advance 2).pc.val = s.pc.val + 4 := by
    rw [State.advance_advance]
    exact State.advance_pc_val hcode.1
  exact ⟨_, _, step_push_of_room hrun hwf hpushCode hb hroom, step_pop_register hrun hpopCode rfl, hpc, rfl⟩

end Sys2Proof.Machine
end

section
/-! PROOFS. The statements of 43_compare.md: EQ and GT, with the clauses about two sources that other instructions
share. -/

namespace Sys2Proof.Machine

variable {i : Instr} {s : State} {a b c : Operand}

/-! ### Clauses that rules with two sources share -/

/-- A rule that begins by resolving `b`, then `c`, checks them in that order (40_step_and_resolver.md R72). -/
theorem sourcesChecked_of_withValues {k : Word → Word → Result} (h : exec i s = withValues s b c k) :
    sourcesChecked i s b c := by
  refine ⟨sourceChecked_of_withValue h, ?_⟩
  rintro vb code hb rfl
  exact h.trans (withValue_ok hb _)

/-- A rule that resolves two sources and then writes to its destination checks both, and writes what it makes of their
values (R69, R72). -/
theorem sourcesChecked_and_writesTo {f : Word → Word → Word}
    (h : exec i s = withValues s b c fun vb vc => writeDest s a (f vb vc)) :
    sourcesChecked i s b c ∧
      ∀ vb vc, resolve s b = .ok vb → resolve s c = .ok vc → writesTo i s a (f vb vc) :=
  ⟨sourcesChecked_of_withValues h, fun _ _ hb hc => writesTo_of_writeDest (h.trans (withValues_ok hb hc _))⟩

/-! ### Truth values as words -/

/-- The word of a decided condition (43_compare.md R84, R85). -/
theorem truthWord_decide (p : Prop) [Decidable p] : truthWord (decide p) = if p then 1 else 0 := by
  simp only [truthWord, decide_eq_true_eq]

/-- Words are equal when they are the same number, on all 16 bits (R84). -/
theorem truthWord_beq (v w : Word) : truthWord (v == w) = if v.toNat = w.toNat then 1 else 0 := by
  simp only [truthWord, beq_iff_eq, BitVec.toNat_inj]

/-! ### EQ and GT -/

/-- EQ with the word it writes spelled out (R84). -/
theorem exec_eq (a b c : Operand) (s : State) : exec (.eq a b c) s =
    withValues s b c fun vb vc => writeDest s a (if vb.toNat = vc.toNat then 1 else 0) := by
  simp only [exec, execEq, truthWord_beq]

/-- GT with the word it writes spelled out (R85). -/
theorem exec_gt (a b c : Operand) (s : State) : exec (.gt a b c) s =
    withValues s b c fun vb vc => writeDest s a (if vb.toNat > vc.toNat then 1 else 0) := by
  simp only [exec, execGt, truthWord_decide]

/-- Settles O25: EQ resolves its two sources and then writes whether they are the same number. -/
theorem eqCompares : Obligations.EqCompares := fun a b c =>
  ⟨runsAs_encode (.eq a b c), fun s => sourcesChecked_and_writesTo (exec_eq a b c s)⟩

/-- Settles O26: GT resolves its two sources and then writes whether the first is the greater number. -/
theorem gtCompares : Obligations.GtCompares := fun a b c =>
  ⟨runsAs_encode (.gt a b c), fun s => sourcesChecked_and_writesTo (exec_gt a b c s)⟩

end Sys2Proof.Machine
end

section
/-! PROOFS. The statements of 44_jump.md: JMP, JT and JF, with the clauses of a jump that its rules share. -/

namespace Sys2Proof.Machine

variable {i : Instr} {s : State} {b x : Operand} {v w : Word}

/-! ### Clauses that jumps share -/

/-- A jump to a word sets the counter to it and changes nothing else (44_jump.md R90). -/
theorem goesTo_of_setPc (h : exec i s = .next (s.setPc w)) : goesTo i s w := ⟨_, h, rfl, rfl⟩

/-- A rule that has come to a jump with a resolved target checks the target, and goes there (R88, R89). -/
theorem sourceChecked_and_goesTo (h : exec i s = withValue s x fun t => .next (s.setPc t)) :
    sourceChecked i s x ∧ ∀ t, resolve s x = .ok t → goesTo i s t :=
  ⟨sourceChecked_of_withValue h, fun _ hx => goesTo_of_setPc (h.trans (withValue_ok hx _))⟩

/-- The test of a jump's condition is on the number, all 16 bits of it (R88, R89). -/
theorem isZero_iff : isZero v = true ↔ v.toNat = 0 := by
  rw [isZero, beq_iff_eq, ← BitVec.toNat_inj]
  rfl

/-! ### JMP -/

/-- Settles O27: JMP sets the counter to its operand word. -/
theorem jmpGoesToRawWord : Obligations.JmpGoesToRawWord := fun x =>
  ⟨runsAs_encode (.jmp x), fun _ => goesTo_of_setPc rfl⟩

/-! ### JT and JF -/

/-- JT on the value 0 goes on, whatever its target (R88). -/
theorem exec_jt_of_zero (x : Operand) (hb : resolve s b = .ok v) (hv : v.toNat = 0) :
    exec (.jt b x) s = .next s := by
  rw [exec, execJt, withValue_ok hb, if_pos (isZero_iff.mpr hv)]

/-- JT on any other value jumps to its resolved target (R88). -/
theorem exec_jt_of_ne_zero (x : Operand) (hb : resolve s b = .ok v) (hv : v.toNat ≠ 0) :
    exec (.jt b x) s = withValue s x fun t => .next (s.setPc t) := by
  rw [exec, execJt, withValue_ok hb, if_neg (mt isZero_iff.mp hv)]

/-- JF on the value 0 jumps to its resolved target (R89). -/
theorem exec_jf_of_zero (x : Operand) (hb : resolve s b = .ok v) (hv : v.toNat = 0) :
    exec (.jf b x) s = withValue s x fun t => .next (s.setPc t) := by
  rw [exec, execJf, withValue_ok hb, if_pos (isZero_iff.mpr hv)]

/-- JF on any other value goes on, whatever its target (R89). -/
theorem exec_jf_of_ne_zero (x : Operand) (hb : resolve s b = .ok v) (hv : v.toNat ≠ 0) :
    exec (.jf b x) s = .next s := by
  rw [exec, execJf, withValue_ok hb, if_neg (mt isZero_iff.mp hv)]

/-- Settles O28: JT resolves its source, and only a value that is not 0 brings it to its target. -/
theorem jtJumpsIfNonzero : Obligations.JtJumpsIfNonzero := fun b x =>
  ⟨runsAs_encode (.jt b x), fun _ =>
    ⟨sourceChecked_of_withValue rfl, fun _ hb =>
      ⟨exec_jt_of_zero x hb, fun hv => sourceChecked_and_goesTo (exec_jt_of_ne_zero x hb hv)⟩⟩⟩

/-- Settles O29: JF resolves its source, and only the value 0 brings it to its target. -/
theorem jfJumpsIfZero : Obligations.JfJumpsIfZero := fun b x =>
  ⟨runsAs_encode (.jf b x), fun _ =>
    ⟨sourceChecked_of_withValue rfl, fun _ hb =>
      ⟨exec_jf_of_ne_zero x hb, fun hv => sourceChecked_and_goesTo (exec_jf_of_zero x hb hv)⟩⟩⟩

end Sys2Proof.Machine
end

section
/-! PROOFS. The statements of 45_alu.md: ADD, MULT, MOD, AND, OR and NOT, the range of the results, and NOT twice. -/

namespace Sys2Proof.Machine

variable {s : State} {b c : Operand} {v w : Word}

/-! ### ADD and MULT -/

/-- ADD with the word it writes spelled out (45_alu.md R93). -/
theorem exec_add (a b c : Operand) (s : State) : exec (.add a b c) s =
    withValues s b c fun vb vc => writeDest s a (BitVec.ofNat 16 ((vb.toNat + vc.toNat) % 32768)) := rfl

/-- MULT with the word it writes spelled out (R94). -/
theorem exec_mult (a b c : Operand) (s : State) : exec (.mult a b c) s =
    withValues s b c fun vb vc => writeDest s a (BitVec.ofNat 16 (vb.toNat * vc.toNat % 32768)) := rfl

/-- Settles O30: ADD resolves its two sources and then writes their sum, reduced. -/
theorem addIsSumMod32768 : Obligations.AddIsSumMod32768 := fun a b c =>
  ⟨runsAs_encode (.add a b c), fun s => sourcesChecked_and_writesTo (exec_add a b c s)⟩

/-- Settles O31: MULT resolves its two sources and then writes their product, reduced. -/
theorem multIsProductMod32768 : Obligations.MultIsProductMod32768 := fun a b c =>
  ⟨runsAs_encode (.mult a b c), fun s => sourcesChecked_and_writesTo (exec_mult a b c s)⟩

/-! ### MOD -/

/-- MOD by 0 faults, whatever its destination (R95; 60_exceptions.md R120). -/
theorem exec_mod_of_zero (a : Operand) (hb : resolve s b = .ok v) (hc : resolve s c = .ok w) (hw : w.toNat = 0) :
    exec (.mod a b c) s = raised s ⟨.modByZero, none⟩ := by
  rw [exec, execMod, withValues_ok hb hc, if_pos (BitVec.eq_of_toNat_eq hw)]

/-- MOD by any other value writes the remainder (R95). -/
theorem exec_mod_of_ne_zero (a : Operand) (hb : resolve s b = .ok v) (hc : resolve s c = .ok w)
    (hw : w.toNat ≠ 0) : exec (.mod a b c) s = writeDest s a (BitVec.ofNat 16 (v.toNat % w.toNat)) := by
  rw [exec, execMod, withValues_ok hb hc, if_neg (mt (congrArg BitVec.toNat) hw), aluMod]

/-- Settles O32: MOD resolves its two sources, and only a divisor that is not 0 brings it to its destination. -/
theorem modIsRemainder : Obligations.ModIsRemainder := fun a b c =>
  ⟨runsAs_encode (.mod a b c), fun _ =>
    ⟨sourcesChecked_of_withValues rfl, fun _ _ hb hc =>
      ⟨exec_mod_of_zero a hb hc, fun hw => writesTo_of_writeDest (exec_mod_of_ne_zero a hb hc hw)⟩⟩⟩

/-! ### AND and OR -/

/-- The bitwise and of two words is that of the two numbers (R96). -/
theorem and_eq_ofNat (v w : Word) : v &&& w = BitVec.ofNat 16 (v.toNat &&& w.toNat) := by
  rw [← BitVec.toNat_and, BitVec.ofNat_toNat, BitVec.setWidth_eq]

/-- The bitwise or of two words is that of the two numbers (R97). -/
theorem or_eq_ofNat (v w : Word) : v ||| w = BitVec.ofNat 16 (v.toNat ||| w.toNat) := by
  rw [← BitVec.toNat_or, BitVec.ofNat_toNat, BitVec.setWidth_eq]

/-- AND with the word it writes spelled out (R96). -/
theorem exec_and (a b c : Operand) (s : State) : exec (.and a b c) s =
    withValues s b c fun vb vc => writeDest s a (BitVec.ofNat 16 (vb.toNat &&& vc.toNat)) := by
  simp only [exec, execAnd, and_eq_ofNat]

/-- OR with the word it writes spelled out (R97). -/
theorem exec_or (a b c : Operand) (s : State) : exec (.or a b c) s =
    withValues s b c fun vb vc => writeDest s a (BitVec.ofNat 16 (vb.toNat ||| vc.toNat)) := by
  simp only [exec, execOr, or_eq_ofNat]

/-- Settles O33: AND resolves its two sources and then writes their bitwise and. -/
theorem andIsBitwise : Obligations.AndIsBitwise := fun a b c =>
  ⟨runsAs_encode (.and a b c), fun s => sourcesChecked_and_writesTo (exec_and a b c s)⟩

/-- Settles O34: OR resolves its two sources and then writes their bitwise or. -/
theorem orIsBitwise : Obligations.OrIsBitwise := fun a b c =>
  ⟨runsAs_encode (.or a b c), fun s => sourcesChecked_and_writesTo (exec_or a b c s)⟩

/-! ### NOT -/

/-- The complement of all 16 bits, masked to 15 of them, as a number (R98): the mask is a remainder by 32768. -/
theorem toNat_aluNot (v : Word) : (aluNot v).toNat = 32767 - v.toNat % 32768 := by
  have hmask : (aluNot v).toNat = (65535 - v.toNat) % 32768 := by
    rw [aluNot, BitVec.toNat_and, BitVec.toNat_not]
    exact Nat.and_two_pow_sub_one_eq_mod _ 15
  have := v.isLt
  omega

/-- Complemented twice, a value loses its bit 15 and nothing else (R100). -/
theorem toNat_aluNot_aluNot (v : Word) : (aluNot (aluNot v)).toNat = v.toNat % 32768 := by
  rw [toNat_aluNot, toNat_aluNot]
  omega

/-- NOT with the word it writes spelled out (R98). -/
theorem exec_not (a b : Operand) (s : State) : exec (.not a b) s =
    withValue s b fun vb => writeDest s a (BitVec.ofNat 16 (32767 - vb.toNat % 32768)) := by
  simp only [exec, execNot, ← toNat_aluNot, BitVec.ofNat_toNat, BitVec.setWidth_eq]

/-- Settles O35: NOT resolves its source and then writes the complement of its low 15 bits. -/
theorem notIsComplement15 : Obligations.NotIsComplement15 := fun a b =>
  ⟨runsAs_encode (.not a b), fun s =>
    ⟨sourceChecked_of_withValue rfl, fun _ hb =>
      writesTo_of_writeDest ((exec_not a b s).trans (withValue_ok hb _))⟩⟩

/-- The state with the register `r` complemented in place, as NOT r,r leaves it (`exec_not_self`). -/
def State.notReg (s : State) (r : Fin 8) : State := s.writeReg r (aluNot (s.readReg r))

/-- NOT of a register into itself completes from every state. -/
theorem exec_not_self (s : State) (r : Fin 8) :
    exec (.not (.register r) (.register r)) s = .next (s.notReg r) := rfl

/-- A register complemented in place twice has lost its bit 15 and nothing else (R100). -/
theorem State.toNat_readReg_notReg_notReg (s : State) (r : Fin 8) :
    (((s.notReg r).notReg r).readReg r).toNat = (s.readReg r).toNat % 32768 := by
  simp only [State.notReg, State.readReg_writeReg_same, toNat_aluNot_aluNot]

/-- Settles O53: the second NOT reads what the first one wrote, and what is lost is bit 15. -/
theorem notTwice : Obligations.NotTwice := by
  intro s r
  have hu := s.toNat_readReg_notReg_notReg r
  simp only [State.readReg] at hu
  have := s.regs[r].isLt
  refine ⟨_, _, exec_not_self s r, exec_not_self _ r, fun hlow => BitVec.eq_of_toNat_eq ?_, fun hhigh => ?_⟩
  · omega
  · omega

/-! ### The range of the results -/

/-- A register that a write has changed holds the value written, and so is bounded as that value is. -/
theorem State.readReg_writeReg_le {r q : Fin 8} (h : (s.writeReg r v).readReg q ≠ s.readReg q)
    (hv : v.toNat ≤ 32767) : ((s.writeReg r v).readReg q).toNat ≤ 32767 := by
  obtain rfl | hq := eq_or_ne q r
  · rwa [State.readReg_writeReg_same]
  · exact absurd (s.readReg_writeReg_other v hq) h

/-- INPUT's byte, as a word, lies below 32768 (48_io.md R111). -/
theorem toNat_setWidth_byte_le (ch : Byte) : (ch.setWidth 16).toNat ≤ 32767 := by
  have := ch.isLt
  rw [BitVec.toNat_setWidth]
  omega

/-- Settles O52: of the three effects that write a register, one is POP's, one writes a byte, and one carries the bound
of the five instructions that have one. -/
theorem resultsFitFifteenBits : Obligations.ResultsFitFifteenBits := by
  intro i s t q h hne hi
  cases exec_effect h with
  | write r v hd hp hn hv =>
    exact State.readReg_writeReg_le hne (hv (by simpa only [hn, exists_false, or_false] using hi))
  | inputWrite r ch rest hs =>
    exact State.readReg_writeReg_le (s := { s with input := rest }) hne (toNat_setWidth_byte_le ch)
  | popWrite r v rest hs => simp at hi
  | _ => exact absurd (by simp) hne

end Sys2Proof.Machine
end

section
/-! PROOFS. The statements of 46_memory_access.md: RMEM and WMEM. -/

namespace Sys2Proof.Machine

variable {s : State} {x b : Operand} {addr v : Word}

/-! ### RMEM -/

/-- RMEM with a resolved address comes to its destination with the cell there (46_memory_access.md R102). -/
theorem exec_rmem_of_ok (a : Operand) (hx : resolve s x = .ok addr) :
    exec (.rmem a x) s = writeDest s a (s.mem.readCell addr) := withValue_ok hx _

/-- Settles O36: RMEM resolves its address and then writes the cell there. -/
theorem rmemLoadsCell : Obligations.RmemLoadsCell := fun a x =>
  ⟨runsAs_encode (.rmem a x), fun _ =>
    ⟨sourceChecked_of_withValue rfl, fun _ hx => writesTo_of_writeDest (exec_rmem_of_ok a hx)⟩⟩

/-! ### WMEM -/

/-- WMEM with a resolved address and value writes the cell, and leaves the rest of the state as it is (R103). -/
theorem exec_wmem_of_ok (hx : resolve s x = .ok addr) (hb : resolve s b = .ok v) :
    exec (.wmem x b) s = .next { s with mem := s.mem.writeCell addr v } := withValues_ok hx hb _

/-- Settles O37: WMEM resolves its address and its value and then writes the cell; the laws of a cell write
(`cellWriteThenRead`) say what memory then holds. -/
theorem wmemStoresCell : Obligations.WmemStoresCell := by
  refine fun x b => ⟨runsAs_encode (.wmem x b), fun s =>
    ⟨sourcesChecked_of_withValues rfl, fun addr vb hx hb => ?_⟩⟩
  obtain ⟨hread, hcells, hbytes⟩ := cellWriteThenRead s.mem addr vb
  exact ⟨_, exec_wmem_of_ok hx hb, rfl, fun hwf => (hread hwf).1, hcells, hbytes⟩

end Sys2Proof.Machine
end

section
/-! PROOFS. The statements of 47_call.md: CALL and RET, and the return from a CALL. -/

namespace Sys2Proof.Machine

variable {s : State} {x : Operand} {v : Word} {rest : List Word}

/-! ### CALL -/

/-- With its return address past the last cell CALL faults, whatever its target (47_call.md R106). -/
theorem exec_call_at_top (x : Operand) (hpc : s.pc.val = 65536) :
    exec (.call x) s = raised s ⟨.pcOutOfRange, none⟩ := by
  rw [exec, execCall, if_pos hpc]

/-- With no room for the return address CALL overflows (R106). -/
theorem exec_call_of_full (x : Operand) (hpc : s.pc.val ≠ 65536) (hfull : s.stackCapacity = some s.stack.length) :
    exec (.call x) s = raised s ⟨.stackOverflow, none⟩ := by
  rw [exec, execCall, if_neg hpc, (pushOnStack s _).1 hfull]

/-- With room for it CALL puts the return address on top, and only then looks at its target (R106). -/
theorem exec_call_of_room (x : Operand) (hpc : s.pc.val ≠ 65536) (hroom : s.stackCapacity ≠ some s.stack.length) :
    exec (.call x) s =
      withValue { s with stack := s.pcWord :: s.stack } x fun t =>
        .next ({ s with stack := s.pcWord :: s.stack }.setPc t) := by
  rw [exec, execCall, if_neg hpc, (pushOnStack s _).2 hroom]

/-- CALL with room and a target's value goes there: the push has changed no register that the target is read from
(R106). -/
theorem exec_call_of_ok (hpc : s.pc.val ≠ 65536) (hroom : s.stackCapacity ≠ some s.stack.length)
    (hx : resolve s x = .ok v) :
    exec (.call x) s = .next ({ s with stack := s.pcWord :: s.stack }.setPc v) := by
  have hx' : resolve { s with stack := s.pcWord :: s.stack } x = .ok v := (resolve_congr rfl x).trans hx
  rw [exec_call_of_room x hpc hroom, withValue_ok hx']

/-- Settles O38: the counter is tested, then the capacity, and the target is resolved with the return address pushed. -/
theorem callPushesAndJumps : Obligations.CallPushesAndJumps := by
  refine fun x => ⟨runsAs_encode (.call x), fun s =>
    ⟨exec_call_at_top x, exec_call_of_full x, fun hpc hroom => ⟨?_, fun t hx => ?_⟩⟩⟩
  · rintro code rfl
    exact (exec_call_of_room _ hpc hroom).trans (withValue_invalid _ code _)
  · exact ⟨_, exec_call_of_ok hpc hroom hx, rfl, rfl⟩

/-! ### RET -/

/-- RET on an empty stack underflows (47_call.md R107). -/
theorem exec_ret_of_empty (h : s.stack = []) : exec .ret s = raised s ⟨.stackUnderflow, none⟩ := by
  rw [exec, execRet, (popOffStack s).1 h]

/-- RET takes the top off the stack, and goes to it as it is (R107). -/
theorem exec_ret_of_cons (h : s.stack = v :: rest) : exec .ret s = .next ({ s with stack := rest }.setPc v) := by
  rw [exec, execRet, (popOffStack s).2 v rest h]

/-- Settles O39: whether there is a word on the stack decides. -/
theorem retPopsPc : Obligations.RetPopsPc :=
  ⟨runsAs_encode .ret, fun _ => ⟨exec_ret_of_empty, fun _ _ hs => ⟨_, exec_ret_of_cons hs, rfl, rfl⟩⟩⟩

/-! ### CALL, then RET -/

/-- The step of a running machine at a CALL with room for the return address and a target's value. -/
theorem step_call_of_ok (hrun : s.running = true) (hwf : x.wellFormed = true) (hcode : codeAt s [17, x.code])
    (hpc : (s.advance 2).pc.val ≠ 65536) (hroom : s.stackCapacity ≠ some s.stack.length) (hx : resolve s x = .ok v) :
    step s = .next ({ s.advance 2 with stack := (s.advance 2).pcWord :: s.stack }.setPc v) := by
  obtain ⟨-, hstep⟩ := runsAs_encode (.call x) hwf s hrun hcode
  exact hstep.trans (exec_call_of_ok hpc hroom ((resolve_congr rfl x).trans hx))

/-- The step of a running machine at a RET with a word on the stack. -/
theorem step_ret_of_cons (hrun : s.running = true) (hcode : codeAt s [18]) (hs : s.stack = v :: rest) :
    step s = .next ({ s.advance 1 with stack := rest }.setPc v) := by
  obtain ⟨-, hstep⟩ := runsAs_encode .ret rfl s hrun hcode
  exact hstep.trans (exec_ret_of_cons hs)

/-- Below 65536 the counter as a word is the counter (R106). -/
theorem State.toNat_pcWord (h : s.pc.val < 65536) : s.pcWord.toNat = s.pc.val :=
  Nat.mod_eq_of_lt h

/-- Settles O51: the word that CALL leaves on top of the old stack is the counter behind it, and RET goes there. -/
theorem callThenRetReturns : Obligations.CallThenRetReturns := by
  intro s x tgt hrun hwf hcode hx htop hroom
  have hspace : s.pc.val + 2 ≤ 65536 := hcode.1
  have hpc : (s.advance 2).pc.val = s.pc.val + 2 := State.advance_pc_val hspace
  have hreturn : (s.advance 2).pcWord.toNat = s.pc.val + 2 := by
    rw [State.toNat_pcWord (by omega), hpc]
  refine ⟨_, step_call_of_ok hrun hwf hcode (hpc.trans_ne htop) hroom hx, rfl, fun u hurun hstack hret => ?_⟩
  exact ⟨_, step_ret_of_cons hurun hret hstack, hreturn, rfl⟩

end Sys2Proof.Machine
end

section
/-! PROOFS. The statements of 48_io.md: OUTPUT and INPUT, an INPUT with no byte, and bytes that arrive before a step or
after it. -/

namespace Sys2Proof.Machine

variable {s t : State} {a : Operand}

/-! ### When bytes arrive -/

/-- Delivered bytes are a longer input stream, with nothing in front of the output. -/
theorem State.withStreams_nil_left (bs : List Byte) (s : State) : s.withStreams [] bs = s.deliver bs := rfl

/-- Settles O59: delivered bytes are longer streams, which make no difference to the step of a machine that is not
held. -/
theorem deliveryCommutesWithStep : Obligations.DeliveryCommutesWithStep := by
  intro s t bs h hheld
  rw [← State.withStreams_nil_left, ← State.withStreams_nil_left, step_withStreams fun hh => absurd hh hheld, h]
  rfl

/-! ### OUTPUT -/

/-- The low 8 bits of a word are its number modulo 256 (48_io.md R110). -/
theorem lowByte_eq_ofNat (v : Word) : lowByte v = BitVec.ofNat 8 (v.toNat % 256) := by
  apply BitVec.eq_of_toNat_eq
  rw [lowByte, BitVec.toNat_setWidth, BitVec.toNat_ofNat, Nat.mod_mod]

/-- OUTPUT with the byte it writes spelled out (R110). -/
theorem exec_output (b : Operand) (s : State) : exec (.output b) s =
    withValue s b fun vb => .next (s.consoleWrite (BitVec.ofNat 8 (vb.toNat % 256))) := by
  simp only [exec, execOutput, lowByte_eq_ofNat]

/-- Settles O40: OUTPUT resolves its source and then appends the value's low byte. -/
theorem outputWritesByte : Obligations.OutputWritesByte := fun b =>
  ⟨runsAs_encode (.output b), fun s =>
    ⟨sourceChecked_of_withValue rfl, fun _ hb => (exec_output b s).trans (withValue_ok hb _)⟩⟩

/-! ### INPUT -/

/-- INPUT with a byte there takes it, and only then looks at its destination (48_io.md R111). -/
theorem exec_input_of_cons (a : Operand) {ch : Byte} {rest : List Byte} (h : s.input = ch :: rest) :
    exec (.input a) s = writeDest { s with input := rest } a (BitVec.ofNat 16 ch.toNat) := by
  have hread : s.consoleRead = some (ch, { s with input := rest }) := by rw [State.consoleRead, h]
  rw [exec, execInput, hread, BitVec.ofNat_toNat]

/-- INPUT with no byte there puts the counter back before its two words (R112). -/
theorem exec_input_of_empty (a : Operand) (h : s.input = []) : exec (.input a) s = .next (s.retreat 2) := by
  have hread : s.consoleRead = none := by rw [State.consoleRead, h]
  rw [exec, execInput, hread]

/-- Settles O41: with the byte taken, INPUT is a write to the destination. -/
theorem inputTakesByte : Obligations.InputTakesByte := by
  refine fun a => ⟨runsAs_encode (.input a), fun s ch rest hs => ⟨?_, fun hne => ?_⟩⟩
  · rintro r rfl
    exact exec_input_of_cons _ hs
  · exact (exec_input_of_cons a hs).trans (writeDest_of_ne_register hne)

/-! ### A run, step by step -/

/-- A run from state Halted is over at once, whatever the fuel (80_interfaces.md R148). -/
theorem runUntilHalted_of_halted (h : s.running = false) (fuel : Nat) : runUntilHalted fuel s = some s := by
  cases fuel <;> simp [runUntilHalted, h]

/-- A run with no fuel has no answer while the machine is running. -/
theorem runUntilHalted_zero_of_running (h : s.running = true) : runUntilHalted 0 s = none := if_pos h

/-- A run from state Running goes on from the next state, with one step's fuel less (R148). -/
theorem runUntilHalted_succ_of_step (hrun : s.running = true) (h : step s = .next t) (fuel : Nat) :
    runUntilHalted (fuel + 1) s = runUntilHalted fuel t := by
  rw [runUntilHalted, if_pos hrun, h]

/-- A running machine whose step leaves it where it is runs for ever. -/
theorem runUntilHalted_of_step_self (hrun : s.running = true) (h : step s = .next s) (fuel : Nat) :
    runUntilHalted fuel s = none := by
  induction fuel with
  | zero => exact runUntilHalted_zero_of_running hrun
  | succ fuel ih => exact (runUntilHalted_succ_of_step hrun h fuel).trans ih

/-! ### A held INPUT -/

/-- The step of a running machine at an INPUT with no byte there leaves it where it is (48_io.md R112). -/
theorem step_input_of_empty {rest : List Word} (hrun : s.running = true)
    (hd : decode (s.wordsAtPc 4) = .ok (.input a, rest)) (hs : s.input = []) : step s = .next s := by
  obtain ⟨hstep, hpc⟩ := stepRunsDecodedInstr s _ rest hrun hd
  have hroom : s.pc.val + 2 ≤ 65536 := by
    have := (s.advance 2).pc.isLt
    simp only [encode, List.length_cons, List.length_nil] at hpc
    omega
  calc step s = exec (.input a) (s.advance 2) := hstep
    _ = .next ((s.advance 2).retreat 2) := exec_input_of_empty a hs
    _ = .next s := by rw [State.retreat_advance hroom]

/-- Settles O42: the held step is no step, so that the run goes on for ever; a delivered byte changes nothing of what
stands at the counter, and INPUT takes it. -/
theorem heldInputWaits : Obligations.HeldInputWaits := by
  intro s a rest hrun hd hs
  have hheld := step_input_of_empty hrun hd hs
  refine ⟨hheld, runUntilHalted_of_step_self hrun hheld, ?_⟩
  rintro ch bs r rfl
  obtain ⟨hstep, hpc⟩ := stepRunsDecodedInstr (s.deliver (ch :: bs)) _ rest hrun hd
  have hin : ((s.deliver (ch :: bs)).advance 2).input = ch :: bs := by simp [hs]
  exact ⟨_, hstep.trans (exec_input_of_cons _ hin), hpc, rfl⟩

end Sys2Proof.Machine
end

section
/-! PROOFS. The statements of 60_exceptions.md: what a raise latches, a counter past the last cell, and what of a
faulting instruction has taken effect. -/

namespace Sys2Proof.Machine

variable {s : State}

/-! ### The latch -/

/-- With something latched, a raise clears the running flag and no more (60_exceptions.md R115). -/
theorem State.raise_of_latched (h : s.fault ≠ none) (trap : Trap) : s.raise trap = { s with running := false } := by
  obtain ⟨kind, hkind⟩ := Option.ne_none_iff_exists'.mp h
  rw [State.raise, hkind]

/-- Settles O11: whether something is latched decides. -/
theorem raiseLatchesOnce : Obligations.RaiseLatchesOnce := fun _ _ _ =>
  ⟨fun hclear => State.raise_of_clear hclear _, fun hlatched => State.raise_of_latched hlatched _⟩

/-! ### Past the last cell -/

/-- The state after a fetch phase that began at `s` and has come to 65536 with a word still to fetch (60_exceptions.md
R121, R126). -/
def State.raisedAtTop (s : State) : State := { s with pc := 65536 }.raise ⟨.pcOutOfRange, none⟩

/-- At 65536 the raise leaves the counter where it is. -/
theorem State.raisedAtTop_of_top (h : s.pc.val = 65536) : s.raisedAtTop = s.raise ⟨.pcOutOfRange, none⟩ := by
  have htop : (65536 : Pc) = s.pc := Fin.ext h.symm
  rw [State.raisedAtTop, htop]

/-- A fetch comes to the raise at 65536, or moves on by one towards it. -/
theorem fetch_towardsTop (s : State) :
    (s.pc.val = 65536 ∧ fetch s = .error s.raisedAtTop) ∨
    ((s.advance 1).pc.val = s.pc.val + 1 ∧ ∃ w, fetch s = .ok (w, s.advance 1)) := by
  obtain ⟨hlt, e⟩ | ⟨htop, e⟩ := fetch_cases s
  · exact .inr ⟨State.advance_pc_val hlt, _, e⟩
  · exact .inl ⟨htop, e.trans (congrArg Except.error (State.raisedAtTop_of_top htop).symm)⟩

theorem operands1_pastTop (mk : Word → Instr) (h : 65536 < s.pc.val + 1) :
    operands1 fetch mk s = .error s.raisedAtTop := by
  obtain ⟨-, e⟩ | ⟨hpc, -⟩ := fetch_towardsTop s
  · rw [operands1, e]
  · have := (s.advance 1).pc.isLt
    omega

theorem operands2_pastTop (mk : Word → Word → Instr) (h : 65536 < s.pc.val + 2) :
    operands2 fetch mk s = .error s.raisedAtTop := by
  obtain ⟨-, e⟩ | ⟨hpc, w, e⟩ := fetch_towardsTop s <;> rw [operands2, e]
  exact operands1_pastTop (mk w) (by omega)

theorem operands3_pastTop (mk : Word → Word → Word → Instr) (h : 65536 < s.pc.val + 3) :
    operands3 fetch mk s = .error s.raisedAtTop := by
  obtain ⟨-, e⟩ | ⟨hpc, w, e⟩ := fetch_towardsTop s <;> rw [operands3, e]
  exact operands2_pastTop (mk w) (by omega)

/-- The opcode map's operand counts are those of the words that spell each instruction (30_encoding.md R53). -/
theorem operandCount_of_spelledBy {i : Instr} {op : Word} {ws : List Word} (h : SpelledBy i (op :: ws)) :
    operandCount op.toNat = ws.length := by
  obtain ⟨-, h⟩ := h
  cases i <;> obtain ⟨rfl, rfl⟩ := List.cons.inj h <;> rfl

/-- A fetch phase whose operand words go past the last cell ends in the raise at 65536 (60_exceptions.md R121). -/
theorem fetchInstr_pastTop {op : Word} (hcode : codeAt s [op]) (hop : op.toNat ≤ 21)
    (h : 65536 < s.pc.val + 1 + operandCount op.toNat) : fetchInstr s = .error s.raisedAtTop := by
  have hpc : (s.advance 1).pc.val = s.pc.val + 1 := State.advance_pc_val hcode.1
  have hroom : s.pc.val + 1 ≤ 65536 := hcode.1
  have hread := decodeFrom_afterOpcode (fetch_of_codeAt hcode) fun op t => t.raise ⟨.invalidOpcode, some op⟩
  change AfterOpcode fetch _ op (s.advance 1) (fetchInstr s) at hread
  generalize fetchInstr s = p at hread ⊢
  cases hread with
  | invalidOpcode hlt => omega
  | noOperand i _ hi =>
    rw [operandCount_of_spelledBy hi, List.length_nil] at h
    omega
  | oneOperand mk _ hmk =>
    rw [operandCount_of_spelledBy (hmk 0)] at h
    exact operands1_pastTop mk (hpc ▸ h)
  | twoOperands mk _ hmk =>
    rw [operandCount_of_spelledBy (hmk 0 0)] at h
    exact operands2_pastTop mk (hpc ▸ h)
  | threeOperands mk _ hmk =>
    rw [operandCount_of_spelledBy (hmk 0 0 0)] at h
    exact operands3_pastTop mk (hpc ▸ h)

/-- A fetch phase that begins at 65536 ends in the raise there (R121). -/
theorem fetchInstr_top (h : s.pc.val = 65536) : fetchInstr s = .error (s.raise ⟨.pcOutOfRange, none⟩) := by
  rw [fetchInstr, decodeFrom, fetch_top h]

/-- Settles O19: a fetch phase that comes to 65536 is the whole step, and CALL tests its return address first. -/
theorem pcOutOfRangeFaults : Obligations.PcOutOfRangeFaults :=
  ⟨fun _ hrun htop => step_of_fetchInstr_error hrun (fetchInstr_top htop),
    fun _ _ hrun hcode hop h => step_of_fetchInstr_error hrun (fetchInstr_pastTop hcode hop h),
    fun _ x htop => exec_call_at_top x htop⟩

/-! ### What stands above the raise -/

/-- Settles O49: of the sixteen effects, four end in a raise, each over the state that its lines above it have left. -/
theorem faultsArePrecise : Obligations.FaultsArePrecise := by
  intro i s t hrun h hend hi
  cases exec_effect h with
  | halt => exact absurd rfl hi
  | fault trap _ => exact ⟨trap, .inl rfl⟩
  | popFault v rest trap hs => exact ⟨trap, .inr (.inl ⟨⟨_, rfl⟩, v, rest, hs, rfl⟩)⟩
  | inputFault ch rest trap hs => exact ⟨trap, .inr (.inr (.inl ⟨⟨_, rfl⟩, ch, rest, hs, rfl⟩))⟩
  | callFault trap _ => exact ⟨trap, .inr (.inr (.inr ⟨⟨_, rfl⟩, rfl⟩))⟩
  | _ => exact absurd (hrun.symm.trans hend) Bool.noConfusion

end Sys2Proof.Machine
end

section
/-! PROOFS. The statements of 70_reset_and_hazards.md and 80_interfaces.md: a launch that is refused, and a run that
returns. -/

namespace Sys2Proof.Machine

/-! ### Refused launches -/

/-- Settles O57: the image's length is tested for both faults, the odd one first. -/
theorem launchRefusesBadImages : Obligations.LaunchRefusesBadImages := by
  intro image start input capacity hbad
  by_cases hodd : image.length % 2 = 1
  · exact ⟨.oddLength, if_pos hodd⟩
  · exact ⟨.tooLong, (if_neg hodd).trans (if_pos (hbad.resolve_left hodd))⟩

/-! ### A run that returns -/

/-- A halted machine in the invariant's status is final or stopped (70_reset_and_hazards.md R139). -/
theorem State.final_or_stopped {s : State} (hok : s.statusOk) (hend : s.running = false) : s.final ∨ s.stopped := by
  obtain ⟨-, hnotice, -⟩ := hok
  have hiff := hnotice hend
  by_cases hfault : s.fault = none
  · exact .inl ⟨hend, hfault, hiff.mpr hfault⟩
  · exact .inr ⟨hend, hfault, Bool.eq_false_iff.mpr (mt hiff.mp hfault)⟩

/-- A run that returns from the invariant has come to a halted machine in the invariant, and more fuel finds the same
one (80_interfaces.md R148). -/
theorem runUntilHalted_returns {fuel : Nat} {s t : State} (hs : s.inv) (h : runUntilHalted fuel s = some t) :
    t.inv ∧ t.running = false ∧ ∀ more, runUntilHalted (fuel + more) s = some t := by
  cases hrun : s.running with
  | false =>
    obtain rfl : s = t := Option.some.inj ((runUntilHalted_of_halted hrun fuel).symm.trans h)
    exact ⟨hs, hrun, fun _ => runUntilHalted_of_halted hrun _⟩
  | true =>
    cases fuel with
    | zero => cases (runUntilHalted_zero_of_running hrun).symm.trans h
    | succ fuel =>
      obtain ⟨u, hstep⟩ := step_next hrun
      rw [runUntilHalted_succ_of_step hrun hstep] at h
      obtain ⟨ht, hend, hmore⟩ := runUntilHalted_returns (invKeptByStep s u hs hstep) h
      refine ⟨ht, hend, fun more => ?_⟩
      rw [Nat.succ_add, runUntilHalted_succ_of_step hrun hstep, hmore]
termination_by fuel

/-- Settles O58: a run returns at a halted machine that still meets the invariant. -/
theorem runReturnsOnlyWhenHalted : Obligations.RunReturnsOnlyWhenHalted := by
  intro fuel s t hs h
  obtain ⟨⟨-, -, hok⟩, hend, hmore⟩ := runUntilHalted_returns hs h
  exact ⟨State.final_or_stopped hok hend, haltedHasNoStep t hend, hmore⟩

end Sys2Proof.Machine
end
